-- ==== Sys2Proof/Word.lean ====
section
/-! DEFINITION. The widths of SRLCD (00_scope.md R10): a serial transfer is one byte, a nibble is
4 bits, a request word is 16 bits. Every value is unsigned and bit 0 is the least significant bit
(00_scope.md R12), which is how `BitVec` numbers bits. -/

namespace Sys2Proof

/-- A u8: a register output value, an LCD command or data value, a packet (00_scope.md R10). -/
abbrev Byte := BitVec 8

/-- A u4: one half of an LCD value on the 4-bit bus (00_scope.md R10, R17). -/
abbrev Nib := BitVec 4

/-- A u16: one request word (30_encoding.md R70, R71). -/
abbrev Word16 := BitVec 16

end Sys2Proof
end

