-- ==== Sys2Proof/Syntax.lean ====
section
/-! DEFINITION. The requests of SRLCD, one constructor per row of spec/opcode_table.json, with the
operands of 30_encoding.md R73. -/

namespace Sys2Proof

/-- One request (30_encoding.md R72). Every operand is a plain unsigned field (R73). -/
inductive Instr where
  /-- COMMIT (40_transport.md R100): put `value` on the register outputs. -/
  | commit (value : Byte)
  /-- SEND_NIBBLE (41_nibble_framer.md R125): the nibble is `p[7:4]`; `p[3:0]` must be 0. -/
  | sendNibble (rs : Bool) (p : Byte)
  /-- SEND_BYTE (41_nibble_framer.md R130): `b` as two nibbles with register select `rs`. -/
  | sendByte (rs : Bool) (b : Byte)
  /-- WRITE_COMMAND (42_lcd_commands.md R150): the command `b` and its timing class. -/
  | writeCommand (b : Byte)
  /-- WRITE_CHAR (42_lcd_commands.md R158): the data byte `b`. -/
  | writeChar (b : Byte)
  /-- SET_CURSOR (42_lcd_commands.md R165): the set-DDRAM-address command of `col` and `row`. -/
  | setCursor (col : Byte) (row : BitVec 3)
  /-- INIT (42_lcd_commands.md R170): the power-on initialization sequence. -/
  | init
  deriving DecidableEq, Repr

end Sys2Proof
end

