-- ==== Sys2Proof/WellFormed.lean ====
section
/-! DEFINITION. Which requests a request word can carry. Every operand but one fills its field of the
word (30_encoding.md R73), so its type already says its range; SEND_NIBBLE's byte must have a zero
low half (30_encoding.md R70, R73; 41_nibble_framer.md R125). -/

namespace Sys2Proof

/-- The request has an encoding: for SEND_NIBBLE, `p[3:0] = 0` (30_encoding.md R73). -/
def Instr.wf : Instr → Bool
  | .commit _ => true
  | .sendNibble _ p => p &&& 0x0F#8 == 0#8
  | .sendByte _ _ => true
  | .writeCommand _ => true
  | .writeChar _ => true
  | .setCursor _ _ => true
  | .init => true

end Sys2Proof
end

