-- ==== Sys2Proof/Decode.lean ====
section
/-! DEFINITION. The request word (30_encoding.md R70 to R76): its fields, a decoder total on all 65536
words that names why a word is illegal, and after it an encoder written from the same field table. -/

namespace Sys2Proof

/-! ## The fields of a request word (30_encoding.md R70) -/

/-- OP, `w[15:12]`. -/
def opField (w : Word16) : BitVec 4 := w.extractLsb' 12 4

/-- ROW, `w[11:9]`. -/
def rowField (w : Word16) : BitVec 3 := w.extractLsb' 9 3

/-- RS, `w[8]`. -/
def rsField (w : Word16) : Bool := w.getLsbD 8

/-- DATA, `w[7:0]`, the concatenation of DH and DL. -/
def dataField (w : Word16) : Byte := w.extractLsb' 0 8

/-- DL, `w[3:0]`. -/
def dlField (w : Word16) : Nib := w.extractLsb' 0 4

/-- Why a word is illegal (30_encoding.md R75): its OP is 0x0 or 0x8 to 0xF, or a field that R72
requires to be 0 is not. The block reports all of them as ILLEGAL_REQUEST. -/
inductive Illegal where
  | op
  | row
  | rs
  | dl
  | data
  deriving DecidableEq, Repr

/-- What a word is: exactly one of the seven requests, or illegal (30_encoding.md R75). -/
inductive Decoded where
  | request (i : Instr)
  | illegal (why : Illegal)
  deriving DecidableEq, Repr

/-- `decode` of 30_encoding.md R76. Where several fields of one word are wrong, the reason named is
the first in the order ROW, RS, DL, DATA; the block's answer does not depend on it. -/
def decode (w : Word16) : Decoded :=
  match (opField w).toNat with
  | 1 =>
    if rowField w ≠ 0 then .illegal .row
    else if rsField w then .illegal .rs
    else .request (.commit (dataField w))
  | 2 =>
    if rowField w ≠ 0 then .illegal .row
    else if dlField w ≠ 0 then .illegal .dl
    else .request (.sendNibble (rsField w) (dataField w))
  | 3 =>
    if rowField w ≠ 0 then .illegal .row
    else .request (.sendByte (rsField w) (dataField w))
  | 4 =>
    if rowField w ≠ 0 then .illegal .row
    else if rsField w then .illegal .rs
    else .request (.writeCommand (dataField w))
  | 5 =>
    if rowField w ≠ 0 then .illegal .row
    else if rsField w then .illegal .rs
    else .request (.writeChar (dataField w))
  | 6 =>
    if rsField w then .illegal .rs
    else .request (.setCursor (dataField w) (rowField w))
  | 7 =>
    if rowField w ≠ 0 then .illegal .row
    else if rsField w then .illegal .rs
    else if dataField w ≠ 0 then .illegal .data
    else .request .init
  | _ => .illegal .op

/-- The request of a decoded word, if it is one. -/
def Decoded.request? : Decoded → Option Instr
  | .request i => some i
  | .illegal _ => none

/-- The decoder on a word numbered as spec/opcode_table.json numbers its bits: every row is one 16-bit
word, submitted whole, so bit `k` of `w` is bit `k` of `req_word` and the bits from `nbits` up are 0
(log 21). -/
def decodeTableWord (nbits w : Nat) : Option Instr :=
  (decode (BitVec.ofNat 16 (w % 2 ^ nbits))).request?

/-! ## The encoder -/

/-- A request word from its fields (30_encoding.md R70). -/
def requestWord (op : BitVec 4) (row : BitVec 3) (rs : Bool) (data : Byte) : Word16 :=
  op ++ row ++ BitVec.ofBool rs ++ data

/-- The word of a request (30_encoding.md R72, R73); a field that is no operand is 0. -/
def encode : Instr → Word16
  | .commit value => requestWord 0x1 0 false value
  | .sendNibble rs p => requestWord 0x2 0 rs p
  | .sendByte rs b => requestWord 0x3 0 rs b
  | .writeCommand b => requestWord 0x4 0 false b
  | .writeChar b => requestWord 0x5 0 false b
  | .setCursor col row => requestWord 0x6 row false col
  | .init => requestWord 0x7 0 false 0

end Sys2Proof
end

