-- ==== Sys2Proof/Config.lean ====
section
/-! DEFINITION. The configuration record of 10_state.md R30 and the names of its nine delay
parameters (R31). Every field is a build-time constant (R29); nothing in the model writes one. What a
configuration means (floors, the row table, well-formedness) is in Machine/Parameters.lean. -/

namespace Sys2Proof

/-- The names of the delay parameters (10_state.md R31). An event `Wait(P)` carries one. -/
inductive Delay where
  | powerOn   -- T_POWERON
  | reset1    -- T_RESET1
  | reset2    -- T_RESET2
  | reset3    -- T_RESET3
  | reset4    -- T_RESET4
  | enHigh    -- T_EN_HIGH
  | nibble    -- T_NIBBLE
  | byte      -- T_BYTE
  | long      -- T_LONG
  deriving DecidableEq, Repr

/-- The configuration record `Cfg` (10_state.md R30). DESIGN CHOICE (log 8): a duration is a rational
number of nanoseconds and a frequency a rational number of hertz. -/
structure Cfg where
  /-- ROWS, the number of rows in the row offset table. -/
  rows      : Nat
  /-- ROW_OFFSET, the DDRAM base offset of each row (R35). -/
  rowOffset : List Byte
  /-- F_SCLK, the serial clock rate, in hertz. -/
  fSclk     : Rat
  /-- F_CLK, the rate of the block's internal clock, in hertz (R34). -/
  fClk      : Rat
  tPowerOn  : Rat
  tReset1   : Rat
  tReset2   : Rat
  tReset3   : Rat
  tReset4   : Rat
  tEnHigh   : Rat
  tNibble   : Rat
  tByte     : Rat
  tLong     : Rat
  /-- LATCH_PIN, an identifier with no effect on the block's behaviour (R30; log 8). -/
  latchPin  : Nat
  deriving DecidableEq, Repr

/-- The build that `State.reset` carries. DESIGN CHOICE (log 6, unsafe): the spec leaves every one of
these to the integrator; this is one well-formed configuration, of the geometry 95_test_vectors.md
uses. Claims are stated for every state, so for every configuration. -/
def Cfg.reference : Cfg where
  rows      := 2
  rowOffset := [0x00, 0x40]
  fSclk     := 1000000
  fClk      := 1000000
  tPowerOn  := 40000000
  tReset1   := 5000000
  tReset2   := 100000
  tReset3   := 100000
  tReset4   := 100000
  tEnHigh   := 2000
  tNibble   := 50000
  tByte     := 100000
  tLong     := 2000000
  latchPin  := 0

end Sys2Proof
end

