-- ==== Sys2Proof/Machine/State.lean ====
section
/-! DEFINITION. The state of SRLCD, the reasons a step can stop, and the state after reset.
`State` is the table of 10_state.md R25 with the delay counter of R34, the configuration of R30, and
two lists of the model's own: what the LCD captured (43_lcd_capture.md R193) and what the outside of
the block does next (10_state.md R37 to R39). SRLCD has no memory (20_memory.md R50), so there is no
memory field (log 20). -/

namespace Sys2Proof.Machine

/-- An event of the observable behaviour (00_scope.md R14). -/
inductive Event where
  /-- One transport commit of `v` (40_transport.md R100). -/
  | commit (v : Byte)
  /-- Every output held for at least `Cfg.P` (10_state.md R33). -/
  | wait (p : Delay)
  deriving DecidableEq, Repr

/-- The name of a request, as `CUR_OP` holds it (10_state.md R25, R39). -/
inductive Op where
  | commit
  | sendNibble
  | sendByte
  | writeCommand
  | writeChar
  | setCursor
  | init
  deriving DecidableEq, Repr

/-- The result codes `ERR` can be given (60_exceptions.md R212). Codes 5, 6 and 7 are never produced. -/
inductive ResultCode where
  | ok
  | illegalRequest
  | notInitialized
  | alreadyInitialized
  | rowOutOfRange
  deriving DecidableEq, Repr

/-- The eight cells of the shift stage, each a known bit or unknown (10_state.md R26; log 3): `b7` is
`SHIFT[7]`. A part-shifted stage over an unknown old value is known only in its low cells
(95_test_vectors.md TR-1). -/
structure Stage where
  b7 : Option Bool
  b6 : Option Bool
  b5 : Option Bool
  b4 : Option Bool
  b3 : Option Bool
  b2 : Option Bool
  b1 : Option Bool
  b0 : Option Bool
  deriving DecidableEq, Repr

/-- The stage of which nothing is known (the unknown value of 10_state.md R26). -/
def Stage.unknown : Stage := ⟨none, none, none, none, none, none, none, none⟩

/-- One nibble as the LCD latched it: the register select and the nibble (00_scope.md R18). -/
structure Latched where
  rs  : Bool
  nib : Nib
  deriving DecidableEq, Repr

/-- What one latch edge makes the LCD capture (43_lcd_capture.md R191), where it is not NONE. -/
inductive Capture where
  /-- CAPTURE(rs, nib): the falling edge of Enable with RS and data unchanged. -/
  | exact (c : Latched)
  /-- CAPTURE(any rs, any nibble): RS or data changed at the falling edge; every value is admitted. -/
  | any
  /-- MAYBE(any rs, any nibble): an unknown output was involved; a capture may or may not happen. -/
  | maybe
  deriving DecidableEq, Repr

/-- One thing the outside of the block does (10_state.md R20, R37, R39). A list of these in State says
which agent moves next (log 1). -/
inductive Input where
  /-- The host offers `w` on the request port: `req_valid = 1`, `req_word = w`. Held while BUSY. -/
  | submit (w : Word16)
  /-- The host runs PRINT_STRING on what is left of a text (42_lcd_commands.md R176). -/
  | printString (text : List Byte)
  /-- The host does nothing for one block step (10_state.md R38). -/
  | blockTurn
  /-- `rst = 1`, however long, between events (70_reset_and_hazards.md R240, R242(a); log 26). -/
  | reset
  /-- `rst` asserted inside the event the block is performing: after `k` pin lines of a commit or `k`
  cycles of a wait (70_reset_and_hazards.md R242). -/
  | resetInside (k : Nat)
  /-- Power goes off and comes back (60_exceptions.md R227; 70_reset_and_hazards.md R243). -/
  | powerCycle
  deriving DecidableEq, Repr

/-- The state of the machine (10_state.md R25, R30, R34). -/
structure State where
  /-- `Cfg` (R30), fixed for the life of the hardware; no step writes it (R29; log 7). -/
  cfg          : Cfg
  /-- `SHIFT`, the shift stage. -/
  shift        : Stage
  /-- `OUT`, the output stage; `none` is the unknown value of R26. -/
  out          : Option Byte
  /-- `LATCH`, the level of the latch pin. -/
  latch        : Bool
  /-- `SCLK`, the level of the serial clock line. -/
  sclk         : Bool
  /-- `MOSI`, the level of the serial data line; `none` where it is unspecified (R25, R108; log 4). -/
  mosi         : Option Bool
  /-- `BUS_OWNED`: the transport holds the serial bus. -/
  busOwned     : Bool
  /-- `BUSY`: a request is being executed. -/
  busy         : Bool
  /-- `INIT_DONE`: the INIT request has completed. -/
  initDone     : Bool
  /-- `ERR`, the result code of the most recent submission. -/
  err          : BitVec 3
  /-- `CUR_OP`: the request being executed, or NONE. -/
  curOp        : Option Op
  /-- `PENDING`: the rest of the expansion of `CUR_OP`. -/
  pending      : List Event
  /-- `TRACE`: the events performed since power-up. -/
  trace        : List Event
  /-- The internal delay counter (R34; 60_exceptions.md R223): cycles still to count. -/
  delayCounter : Nat
  /-- The model's observation: what the LCD captured since power-up, oldest first (log 11). -/
  captures     : List Capture
  /-- The model's input: what the outside does next, oldest first (log 1). -/
  inputs       : List Input
  deriving DecidableEq, Repr

/-- SRLCD has no fault: no event can fail (40_transport.md R107; 60_exceptions.md R210), and a word or
request the block will not perform is rejected, which is a next state (60_exceptions.md R211). Nobody
raises one; that is safe, because the spec names no stop of the machine. -/
inductive Fault where
  deriving DecidableEq, Repr

/-- Why a step gives no meaning. -/
inductive Refusal where
  /-- An instruction not modelled. No arm of `exec` raises it: every request has its meaning. Safe. -/
  | notModelled (mnemonic : String)
  /-- The configuration is not well-formed (10_state.md R32: "it gives no meaning to any run under
  it"). Raised by the step, and by SET_CURSOR where the row table lacks a row below ROWS. Safe. -/
  | illFormedConfig
  deriving DecidableEq, Repr

/-- The machine at power-up (10_state.md R25, column "value after power-up"; 70_reset_and_hazards.md
R241, R243): idle, nothing submitted. `delayCounter` (log 5) and `cfg` (log 6) are the model's
choices; `captures` and `inputs` are the model's own fields and start empty. -/
def State.reset : State where
  cfg          := Cfg.reference
  shift        := Stage.unknown
  out          := none
  latch        := true
  sclk         := false
  mosi         := none
  busOwned     := false
  busy         := false
  initDone     := false
  err          := 0
  curOp        := none
  pending      := []
  trace        := []
  delayCounter := 0
  captures     := []
  inputs       := []

end Sys2Proof.Machine
end

