-- ==== Sys2Proof/Machine/Parameters.lean ====
section
/-! DEFINITION. What a configuration means: the duration of each delay parameter, its floor
(10_state.md R31), the row offset table (R35), well-formedness (R32), and the lower bounds that time a
commit (R36) and a wait (R33, R34). -/

namespace Sys2Proof.Machine

/-- `Cfg.P`: the duration of a delay parameter, in nanoseconds (10_state.md R31). -/
def delayOf (c : Cfg) : Delay → Rat
  | .powerOn => c.tPowerOn
  | .reset1 => c.tReset1
  | .reset2 => c.tReset2
  | .reset3 => c.tReset3
  | .reset4 => c.tReset4
  | .enHigh => c.tEnHigh
  | .nibble => c.tNibble
  | .byte => c.tByte
  | .long => c.tLong

/-- The smallest legal value of a delay, in nanoseconds (10_state.md R31); T_NIBBLE and T_BYTE have no
numeric floor. -/
def delayFloor : Delay → Option Rat
  | .powerOn => some 40000000
  | .reset1 => some 5000000
  | .reset2 => some 100000
  | .reset3 => some 100000
  | .reset4 => some 100000
  | .enHigh => some 450
  | .nibble => none
  | .byte => none
  | .long => some 1520000

/-- The value is at or above the delay's floor; a delay with no floor must be positive (R31, R32). -/
def delayOk (c : Cfg) (p : Delay) : Bool :=
  match delayFloor p with
  | some f => decide (f ≤ delayOf c p)
  | none => decide (0 < delayOf c p)

/-- The Cursor Row Offset Table of a geometry (10_state.md R35); the spec has only these two. -/
def rowOffsetTable : Nat → Option (List Byte)
  | 2 => some [0x00, 0x40]
  | 4 => some [0x00, 0x40, 0x14, 0x54]
  | _ => none

/-- A configuration is well-formed when every check of 10_state.md R32 holds. -/
def cfgWf (c : Cfg) : Bool :=
  (rowOffsetTable c.rows == some c.rowOffset)
    && decide (0 < c.fSclk) && decide (0 < c.fClk)
    && delayOk c .powerOn && delayOk c .reset1 && delayOk c .reset2 && delayOk c .reset3
    && delayOk c .reset4 && delayOk c .enHigh && delayOk c .nibble && delayOk c .byte
    && delayOk c .long

/-- The cycles of the internal clock that time a `Wait(P)`: `ceil(Cfg.P × Cfg.F_CLK)` (10_state.md
R34), with P in nanoseconds and F_CLK in hertz. -/
def waitCycles (c : Cfg) (p : Delay) : Nat := (delayOf c p * c.fClk / 1000000000).ceil.toNat

/-- The least time one commit takes: `8 / Cfg.F_SCLK`, in nanoseconds (10_state.md R36). -/
def commitTime (c : Cfg) : Rat := 8 * 1000000000 / c.fSclk

/-- The least elapsed time of an event, in nanoseconds (10_state.md R33, R36). -/
def minTime (c : Cfg) : Event → Rat
  | .commit _ => commitTime c
  | .wait p => delayOf c p

end Sys2Proof.Machine
end

