-- ==== Sys2Proof/Machine/Operands.lean ====
section
/-! DEFINITION. The arithmetic of the requests: the packet function PACK and the packet's masks, the two
nibbles of a byte, the timing class of a command and the set-DDRAM-address command of a cursor
position. All of it is combinational: nothing here reads a state (41_nibble_framer.md R120). -/

namespace Sys2Proof.Machine

/-- `RS_BIT` (30_encoding.md R77). -/
def rsBit : Byte := 0x01
/-- `ENABLE_BIT` (30_encoding.md R77). -/
def enableBit : Byte := 0x02
/-- `DATA_MASK` (30_encoding.md R77). -/
def dataMask : Byte := 0xF0

/-- A bit as a u8, `zext_8`. -/
def bitByte (b : Bool) : Byte := (BitVec.ofBool b).setWidth 8

/-- `PACK(rs, en, p)` (41_nibble_framer.md R120). -/
def pack (rs en : Bool) (p : Byte) : Byte := (p &&& 0xF0) ||| (bitByte en <<< 1) ||| bitByte rs

/-- `hi(b)`: bits 7 to 4, already in position (41_nibble_framer.md R129). -/
def hi (b : Byte) : Byte := b &&& 0xF0

/-- `lo(b)`: bits 3 to 0, shifted left 4 to align with the bus (41_nibble_framer.md R129). -/
def lo (b : Byte) : Byte := (b <<< 4) &&& 0xF0

/-- `timingClass(b) = LONG` (30_encoding.md R82): exact equality with 0x01 or 0x02. -/
def isLong (b : Byte) : Bool := b == 0x01 || b == 0x02

/-- `(zext_9(col) + zext_9(offset)) mod 256` (42_lcd_commands.md R165, R166). -/
def cursorAddress (col offset : Byte) : Byte :=
  (col.setWidth 9 + offset.setWidth 9).setWidth 8

/-- `0x80 | addr`: the set-DDRAM-address command (42_lcd_commands.md R165). -/
def cursorCommand (col offset : Byte) : Byte := 0x80 ||| cursorAddress col offset

/-! ## The wiring of the outputs (20_memory.md R53; 43_lcd_capture.md R190) -/

/-- RS = Q0. -/
def rsOf (v : Byte) : Bool := v.getLsbD 0

/-- E = Q1. -/
def enableOf (v : Byte) : Bool := v.getLsbD 1

/-- D7..D4 = Q7..Q4. -/
def nibOf (v : Byte) : Nib := v.extractLsb' 4 4

/-! ## The shift stage (40_transport.md R102) -/

/-- The stage that holds a known byte. -/
def Stage.ofByte (v : Byte) : Stage :=
  ⟨some (v.getLsbD 7), some (v.getLsbD 6), some (v.getLsbD 5), some (v.getLsbD 4),
   some (v.getLsbD 3), some (v.getLsbD 2), some (v.getLsbD 1), some (v.getLsbD 0)⟩

/-- One rising edge of SCLK: every cell moves up one place, the new bit enters at `SHIFT[0]`, and the
bit that leaves `SHIFT[7]` goes nowhere (40_transport.md R102). -/
def Stage.shiftIn (g : Stage) (bit : Option Bool) : Stage :=
  ⟨g.b6, g.b5, g.b4, g.b3, g.b2, g.b1, g.b0, bit⟩

/-- The stage's byte where all eight cells are known, and the unknown value else (10_state.md R26). -/
def Stage.toByte? (g : Stage) : Option Byte :=
  match g with
  | ⟨some b7, some b6, some b5, some b4, some b3, some b2, some b1, some b0⟩ =>
    some (BitVec.ofBool b7 ++ BitVec.ofBool b6 ++ BitVec.ofBool b5 ++ BitVec.ofBool b4
      ++ BitVec.ofBool b3 ++ BitVec.ofBool b2 ++ BitVec.ofBool b1 ++ BitVec.ofBool b0)
  | _ => none

end Sys2Proof.Machine
end

