-- ==== Sys2Proof/Machine/Flags.lean ====
section
/-! DEFINITION. The flags BUSY, INIT_DONE and ERR and the ports that show them to the host
(10_state.md R27, R37). SRLCD has no condition codes. -/

namespace Sys2Proof.Machine

/-- The 3-bit code `ERR` holds (60_exceptions.md R212). -/
def ResultCode.toBits : ResultCode → BitVec 3
  | .ok => 0
  | .illegalRequest => 1
  | .notInitialized => 2
  | .alreadyInitialized => 3
  | .rowOutOfRange => 4

/-- `status[7:0]` (10_state.md R27): BUSY at bit 0, INIT_DONE at bit 1, ERR at bits 4:2, bits 7:5 read
0. A function of the state, so reading it has no side effect. -/
def statusWord (s : State) : Byte :=
  0#3 ++ s.err ++ BitVec.ofBool s.initDone ++ BitVec.ofBool s.busy

/-- `req_ready`, equal to `~S.BUSY` (10_state.md R37). -/
def reqReady (s : State) : Bool := !s.busy

/-- The word PRINT_STRING submits for a character: `0x5000 | c` (42_lcd_commands.md R176). -/
def charWord (c : Byte) : Word16 := 0x5000#16 ||| c.setWidth 16

/-- `req_valid` and `req_word`: the word the host offers now, if it offers one (10_state.md R37). Its loop
PRINT_STRING offers the next character's word until the text ends (42_lcd_commands.md R176). -/
def reqWord (s : State) : Option Word16 :=
  match s.inputs with
  | .submit w :: _ => some w
  | .printString (c :: _) :: _ => if c = 0 then none else some (charWord c)
  | _ => none

/-- `Q[7:0]`, equal to `S.OUT` (10_state.md R37). -/
def outputs (s : State) : Option Byte := s.out

/-- A submitted request's effect on ERR (10_state.md R39; 60_exceptions.md R211). -/
def setErr (s : State) (c : ResultCode) : State := { s with err := c.toBits }

end Sys2Proof.Machine
end

