-- ==== Sys2Proof/Machine/Lcd.lean ====
section
/-! DEFINITION. What the LCD controller sees (43_lcd_capture.md): the capture at a latch edge (R191),
the captures of a list of events, and the controller's grouping of captures into transactions (R193).
The controller's own state is out of scope (00_scope.md R7(a)). -/

namespace Sys2Proof.Machine

/-- RS and the data lines are the same in both outputs; bits 2 and 3 take no part (43_lcd_capture.md R191). -/
def sameData (u v : Byte) : Bool := rsOf u == rsOf v && nibOf u == nibOf v

/-- `capture(u, v)` (43_lcd_capture.md R191): `u` is OUT before the latch edge and `v` after it; the
outer `none` is NONE. An unknown new value comes only from a reset inside a commit, where the LCD "may
capture any nibble" (70_reset_and_hazards.md R242(b)). -/
def captureAt (u v : Option Byte) : Option Capture :=
  match u, v with
  | _, none => some .maybe
  | none, some v => if enableOf v then none else some .maybe
  | some u, some v =>
    if enableOf u && !enableOf v then
      if sameData u v then some (.exact ⟨rsOf v, nibOf v⟩) else some .any
    else none

/-- `captures` of a list of events performed from outputs `u`, the captures that are not NONE, in
order, with the output before each commit taken from the event before it (43_lcd_capture.md R193). -/
def capturesFrom (u : Option Byte) : List Event → List Capture
  | [] => []
  | .wait _ :: es => capturesFrom u es
  | .commit v :: es => (captureAt u (some v)).toList ++ capturesFrom (some v) es

/-- The captures that are certain to happen: the one that unknown outputs may make at a first commit is set
aside, as 43_lcd_capture.md R193 does by starting from `OUT[1] = 0` (log 24). -/
def certainCaptures (u : Option Byte) (es : List Event) : List Capture :=
  (capturesFrom u es).filter (· ≠ .maybe)

/-- The output after a list of events performed from output `u`: the last value committed
(40_transport.md R100, R104). -/
def outAfter (u : Option Byte) : List Event → Option Byte
  | [] => u
  | .wait _ :: es => outAfter u es
  | .commit v :: es => outAfter (some v) es

/-- The nibbles the controller really latched are among those a capture list admits: an exact capture
is that nibble, `any` is one nibble of any value, `maybe` is none or one of any value
(43_lcd_capture.md R191; 93_implementation_defined.md U4, U5). -/
def admits : List Capture → List Latched → Bool
  | [], cs => cs.isEmpty
  | .exact c :: ks, cs => match cs with
    | d :: ds => (c == d) && admits ks ds
    | [] => false
  | .any :: ks, cs => match cs with
    | _ :: ds => admits ks ds
    | [] => false
  | .maybe :: ks, cs => admits ks cs || match cs with
    | _ :: ds => admits ks ds
    | [] => false

/-- A transaction as the controller groups nibbles (43_lcd_capture.md R193). -/
inductive Transaction where
  /-- One raw nibble of the reset sequence. -/
  | single (c : Latched)
  /-- Two nibbles, the high one first; `rsAgree` says their register selects are equal. -/
  | byte (rs : Bool) (b : Byte) (rsAgree : Bool)
  /-- A high nibble whose low nibble has not come. -/
  | incomplete (c : Latched)
  deriving DecidableEq, Repr

/-- `pairs` (43_lcd_capture.md R193). -/
def pairs : List Latched → List Transaction
  | [] => []
  | [h] => [.incomplete h]
  | h :: l :: more => .byte h.rs (h.nib ++ l.nib) (h.rs == l.rs) :: pairs more

/-- `transactions` (43_lcd_capture.md R193): the four raw sends of INIT, then pairs. A list of fewer
than four nibbles is not that of a complete INIT and has no grouping (log 24). It takes for granted that the
controller was in a state INIT can reset it from (log 31). -/
def transactions : List Latched → Option (List Transaction)
  | c1 :: c2 :: c3 :: c4 :: rest =>
    some (.single c1 :: .single c2 :: .single c3 :: .single c4 :: pairs rest)
  | _ => none

end Sys2Proof.Machine
end

