-- ==== Sys2Proof/Machine/Ops.lean ====
section
/-! DEFINITION. The shared operations: taking a request and rejecting one (10_state.md R39;
60_exceptions.md R211), performing an event at the pins (40_transport.md R100 to R104; 10_state.md
R33), the block step and the completion (10_state.md R38, R40), and the two resets
(70_reset_and_hazards.md R240 to R243). -/

namespace Sys2Proof.Machine

/-! ## Submission -/

/-- `raise Reject(code)` (00_scope.md R15; 60_exceptions.md R211): the one exception of SRLCD. It saves
nothing but ERR, changes no mode and transfers control nowhere (R218); there is no return from it, for
the block stays idle and takes the next submission (R219). -/
def reject (c : ResultCode) (s : State) : State := setErr s c

/-- Acceptance of a request (10_state.md R39). -/
def accept (op : Op) (events : List Event) (s : State) : State :=
  { setErr s .ok with curOp := some op, pending := events, busy := true }

/-- A submission (10_state.md R39): held, with nothing written, while BUSY (60_exceptions.md R216; log 13); else
rejected with the first code that holds, or accepted. -/
def submitRequest (op : Op) (events : List Event) (code : Option ResultCode) (s : State) : State :=
  if s.busy then s
  else match code with
    | some c => reject c s
    | none => accept op events s

/-- The gate of the two-nibble requests (60_exceptions.md R213). -/
def needsInit (s : State) : Option ResultCode :=
  if s.initDone then none else some .notInitialized

/-- The gate of INIT (60_exceptions.md R214). -/
def onlyBeforeInit (s : State) : Option ResultCode :=
  if s.initDone then some .alreadyInitialized else none

/-! ## A commit at the pins (40_transport.md R101) -/

/-- One line of the pin-level sequence. -/
inductive PinLine where
  | acquire
  | latchLow
  | mosi (bit : Bool)
  | clockHigh
  | clockLow
  | latchHigh
  | release
  deriving DecidableEq, Repr

/-- Lines 4 to 6 of R101 for one bit: set MOSI up while SCLK is low (PRESUMED by the spec
itself, log 27), clock it in, clock low. -/
def bitLines (bit : Bool) : List PinLine := [.mosi bit, .clockHigh, .clockLow]

/-- The bits of a transfer in the order they are sent: most significant first (20_memory.md R52). -/
def serialBits (v : Byte) : List Bool :=
  [v.getLsbD 7, v.getLsbD 6, v.getLsbD 5, v.getLsbD 4,
   v.getLsbD 3, v.getLsbD 2, v.getLsbD 1, v.getLsbD 0]

/-- The lines of one `Commit(v)` (40_transport.md R101): 28 of them. -/
def commitLines (v : Byte) : List PinLine :=
  [.acquire, .latchLow] ++ (serialBits v).flatMap bitLines ++ [.latchHigh, .release]

/-- The rising edge of LATCH: `OUT <- SHIFT`, all eight bits at once (40_transport.md R104), and the LCD
observes the change (43_lcd_capture.md R191). -/
def latchEdge (s : State) : State :=
  { s with out := s.shift.toByte?,
           captures := s.captures ++ (captureAt s.out s.shift.toByte?).toList }

/-- One line at the pins. The shift stage moves on a rising edge of SCLK only (40_transport.md R102) and
the output stage on a rising edge of LATCH only (R104). After the bus is released the level of MOSI is
unspecified (R108; log 4). Every bit arrives, at any rate (R107; log 23). -/
def pinLine (s : State) : PinLine → State
  | .acquire => { s with busOwned := true }
  | .latchLow => { s with latch := false }
  | .mosi bit => { s with mosi := some bit }
  | .clockHigh =>
    { s with sclk := true, shift := if s.sclk then s.shift else s.shift.shiftIn s.mosi }
  | .clockLow => { s with sclk := false }
  | .latchHigh => { (if s.latch then s else latchEdge s) with latch := true }
  | .release => { s with busOwned := false, mosi := none }

/-- The first `k` lines of `Commit(v)`. -/
def commitPart (v : Byte) (k : Nat) (s : State) : State := ((commitLines v).take k).foldl pinLine s

/-- `Commit(v)` whole (40_transport.md R100; log 9), less the entry in TRACE. -/
def performCommit (v : Byte) (s : State) : State := (commitLines v).foldl pinLine s

/-! ## A wait (10_state.md R33, R34) -/

/-- A `Wait` loads the delay counter afresh (10_state.md R34; 60_exceptions.md R223; log 5). -/
def loadDelay (p : Delay) (s : State) : State := { s with delayCounter := waitCycles s.cfg p }

/-- The counter counts `n` cycles down, and stops at 0. -/
def countDown (n : Nat) (s : State) : State := { s with delayCounter := s.delayCounter - n }

/-- The first `k` cycles of `Wait(P)`. -/
def waitPart (p : Delay) (k : Nat) (s : State) : State := countDown k (loadDelay p s)

/-- `Wait(P)` whole: the counter has counted to 0 and nothing else has changed (10_state.md R33). -/
def performWait (p : Delay) (s : State) : State := { loadDelay p s with delayCounter := 0 }

/-! ## Events, the block step and completion -/

/-- Performing an event, less its entry in TRACE (10_state.md R38). -/
def performEvent (s : State) : Event → State
  | .commit v => performCommit v s
  | .wait p => performWait p s

/-- Completion (10_state.md R40). -/
def complete (s : State) : State :=
  { s with initDone := s.initDone || decide (s.curOp = some .init), curOp := none, busy := false }

/-- One block step (10_state.md R38): the first pending event is performed and appended to TRACE, and
the last one completes the request in the same step. An idle block has no step and holds its outputs
(60_exceptions.md R227). -/
def blockStep (s : State) : State :=
  match s.pending with
  | [] => s
  | e :: rest =>
    let t := performEvent s e
    let t := { t with trace := t.trace ++ [e], pending := rest }
    if rest.isEmpty then complete t else t

/-! ## Reset and power -/

/-- The writes of a block reset (70_reset_and_hazards.md R240). MOSI is unknown after it (10_state.md
R25). `SHIFT`, `OUT`, `TRACE` (log 22) and the delay counter are unchanged. -/
def resetWrites (s : State) : State :=
  { s with latch := true, sclk := false, mosi := none, busOwned := false, busy := false,
           initDone := false, err := 0, curOp := none, pending := [] }

/-- Block reset (70_reset_and_hazards.md R240, R242). Where it comes while LATCH is low, driving LATCH
high is an edge that copies a part-shifted stage: both stages become unknown and the LCD may capture
anything (R242(b)). -/
def blockReset (s : State) : State :=
  if s.latch then resetWrites s
  else resetWrites { s with shift := .unknown, out := none,
                            captures := s.captures ++ (captureAt s.out none).toList }

/-- The part of the next pending event that the block has performed when a reset comes inside it. The
event is not yet in TRACE (log 10). -/
def partOfEvent (k : Nat) (s : State) : State :=
  match s.pending with
  | [] => s
  | .commit v :: _ => commitPart v k s
  | .wait p :: _ => waitPart p k s

/-- A block reset inside an event, `k` lines or cycles after its start (70_reset_and_hazards.md R242). -/
def resetInside (k : Nat) (s : State) : State := blockReset (partOfEvent k s)

/-- Power off and on again (60_exceptions.md R227; 70_reset_and_hazards.md R243): every field takes its
value after power-up. The configuration is the hardware's and the inputs are the outside's, so both
stay (log 19). -/
def powerUp (s : State) : State := { State.reset with cfg := s.cfg, inputs := s.inputs }

end Sys2Proof.Machine
end

