-- ==== Sys2Proof/Machine/Transport.lean ====
section
/-! DEFINITION. The transport request COMMIT (40_transport.md). -/

namespace Sys2Proof.Machine

/-- `expand(COMMIT(value))` (40_transport.md R100). -/
def expandCommit (value : Byte) : List Event := [.commit value]

/-- COMMIT (40_transport.md R100): accepted whether or not INIT has run (60_exceptions.md R213). -/
def execCommit (value : Byte) (s : State) : Host.Outcome State Fault Refusal :=
  .next (submitRequest .commit (expandCommit value) none s)

end Sys2Proof.Machine
end

