-- ==== Sys2Proof/Machine/Framer.lean ====
section
/-! DEFINITION. The nibble framer and enable-pulse sequencer: the helper expansions `nibble` and `byte`
and the requests SEND_NIBBLE and SEND_BYTE (41_nibble_framer.md). -/

namespace Sys2Proof.Machine

/-- `nibble(rs, p)`: Setup, Pulse-high, Capture (41_nibble_framer.md R122, R123). -/
def nibbleEvents (rs : Bool) (p : Byte) : List Event :=
  [.commit (pack rs false p),
   .commit (pack rs true p),
   .wait .enHigh,
   .commit (pack rs false p),
   .wait .nibble]

/-- `byte(rs, b)`: the high nibble, the low nibble, and the post-byte settle (41_nibble_framer.md R129). -/
def byteEvents (rs : Bool) (b : Byte) : List Event :=
  nibbleEvents rs (hi b) ++ nibbleEvents rs (lo b) ++ [.wait .byte]

/-- `expand(SEND_NIBBLE(rs, p))` (41_nibble_framer.md R125). -/
def expandSendNibble (rs : Bool) (p : Byte) : List Event := nibbleEvents rs p

/-- SEND_NIBBLE (41_nibble_framer.md R125): accepted whether or not INIT has run. -/
def execSendNibble (rs : Bool) (p : Byte) (s : State) : Host.Outcome State Fault Refusal :=
  .next (submitRequest .sendNibble (expandSendNibble rs p) none s)

/-- `expand(SEND_BYTE(rs, b))` (41_nibble_framer.md R130), with no timing class (R133). -/
def expandSendByte (rs : Bool) (b : Byte) : List Event := byteEvents rs b

/-- SEND_BYTE (41_nibble_framer.md R130): rejected with NOT_INITIALIZED before INIT has completed. -/
def execSendByte (rs : Bool) (b : Byte) (s : State) : Host.Outcome State Fault Refusal :=
  .next (submitRequest .sendByte (expandSendByte rs b) (needsInit s) s)

end Sys2Proof.Machine
end

