-- ==== Sys2Proof/Machine/Commands.lean ====
section
/-! DEFINITION. Command and data dispatch, cursor and initialization: the helper expansion `command` and
the requests WRITE_COMMAND, WRITE_CHAR, SET_CURSOR and INIT (42_lcd_commands.md). -/

namespace Sys2Proof.Machine

/-- `command(b)`: the byte with RS = 0, and the long delay where the class is LONG
(42_lcd_commands.md R151). -/
def commandEvents (b : Byte) : List Event :=
  byteEvents false b ++ if isLong b then [.wait .long] else []

/-- `expand(WRITE_COMMAND(b))` (42_lcd_commands.md R150). -/
def expandWriteCommand (b : Byte) : List Event := commandEvents b

/-- WRITE_COMMAND (42_lcd_commands.md R150). -/
def execWriteCommand (b : Byte) (s : State) : Host.Outcome State Fault Refusal :=
  .next (submitRequest .writeCommand (expandWriteCommand b) (needsInit s) s)

/-- `expand(WRITE_CHAR(b))`: the byte with RS = 1, short settle only (42_lcd_commands.md R158, R159). -/
def expandWriteChar (b : Byte) : List Event := byteEvents true b

/-- WRITE_CHAR (42_lcd_commands.md R158). -/
def execWriteChar (b : Byte) (s : State) : Host.Outcome State Fault Refusal :=
  .next (submitRequest .writeChar (expandWriteChar b) (needsInit s) s)

/-- `expand(SET_CURSOR(col, row))` for a row whose offset is `offset` (42_lcd_commands.md R165). -/
def expandSetCursor (col offset : Byte) : List Event := commandEvents (cursorCommand col offset)

/-- SET_CURSOR (42_lcd_commands.md R165, R167). The row table is read only at an index below ROWS
(60_exceptions.md R215); a table that lacks such a row is not well-formed (10_state.md R32), and a
run under it has no meaning (log 12). -/
def execSetCursor (col : Byte) (row : BitVec 3) (s : State) : Host.Outcome State Fault Refusal :=
  if s.cfg.rows ≤ row.toNat then
    .next (submitRequest .setCursor [] (some ((needsInit s).getD .rowOutOfRange)) s)
  else match s.cfg.rowOffset[row.toNat]? with
    | some offset => .next (submitRequest .setCursor (expandSetCursor col offset) (needsInit s) s)
    | none => .refused .illFormedConfig

/-- `init` (42_lcd_commands.md R171). The raw sends use RS = 0 (R172). -/
def initEvents : List Event :=
  [.wait .powerOn]
    ++ nibbleEvents false 0x30 ++ [.wait .reset1]
    ++ nibbleEvents false 0x30 ++ [.wait .reset2]
    ++ nibbleEvents false 0x30 ++ [.wait .reset3]
    ++ nibbleEvents false 0x20 ++ [.wait .reset4]
    ++ commandEvents 0x28
    ++ commandEvents 0x0C
    ++ commandEvents 0x06
    ++ commandEvents 0x01

/-- `expand(INIT)` (42_lcd_commands.md R170). -/
def expandInit : List Event := initEvents

/-- INIT (42_lcd_commands.md R170): rejected with ALREADY_INITIALIZED once it has completed. -/
def execInit (s : State) : Host.Outcome State Fault Refusal :=
  .next (submitRequest .init expandInit (onlyBeforeInit s) s)

/-- `expand(op, operands, Cfg)` of a request that is accepted (10_state.md R39); a SET_CURSOR whose row has
no offset is never accepted and has no events. -/
def expand (c : Cfg) : Instr → List Event
  | .commit value => expandCommit value
  | .sendNibble rs p => expandSendNibble rs p
  | .sendByte rs b => expandSendByte rs b
  | .writeCommand b => expandWriteCommand b
  | .writeChar b => expandWriteChar b
  | .setCursor col row => ((c.rowOffset[row.toNat]?).map (expandSetCursor col)).getD []
  | .init => expandInit

end Sys2Proof.Machine
end

