-- ==== Sys2Proof/Machine/Dispatch.lean ====
section
/-! DEFINITION. One arm per request: the submission of a decoded request (10_state.md R39). -/

namespace Sys2Proof.Machine

def exec (i : Instr) (s : State) : Host.Outcome State Fault Refusal :=
  match i with
  | .commit value => Sys2Proof.Machine.execCommit value s
  | .sendNibble rs p => Sys2Proof.Machine.execSendNibble rs p s
  | .sendByte rs b => Sys2Proof.Machine.execSendByte rs b s
  | .writeCommand b => Sys2Proof.Machine.execWriteCommand b s
  | .writeChar b => Sys2Proof.Machine.execWriteChar b s
  | .setCursor col row => Sys2Proof.Machine.execSetCursor col row s
  | .init => Sys2Proof.Machine.execInit s

end Sys2Proof.Machine
end

