-- ==== Sys2Proof/Machine/Agents.lean ====
section
/-! DEFINITION. Who moves in a step (10_state.md R20, R38, R39): the host's submission step, its loop
PRINT_STRING (42_lcd_commands.md R176), the block, the reset input and the power switch, in the order
that the list `inputs` gives (log 1). -/

namespace Sys2Proof.Machine

/-- What is left once the outside's oldest action has been consumed. -/
def takeInput (rest : List Input) (s : State) : State := { s with inputs := rest }

/-- The host submission step of an idle block (10_state.md R39): the word is decoded; an illegal one is
rejected with ILLEGAL_REQUEST before any other check (60_exceptions.md R212, R217). -/
def submitWord (w : Word16) (s : State) : Host.Outcome State Fault Refusal :=
  match decode w with
  | .request i => exec i s
  | .illegal _ => .next (reject .illegalRequest s)

/-- One turn of the host's PRINT_STRING loop, while the block is idle (42_lcd_commands.md R176): it ends
before the first 0x00 or at the end of the text, and else submits one character; a rejection does not
stop it (log 17). -/
def printTurn (text : List Byte) (rest : List Input) (s : State) :
    Host.Outcome State Fault Refusal :=
  match text with
  | [] => .next (takeInput rest s)
  | c :: more =>
    if c = 0 then .next (takeInput rest s)
    else submitWord (charWord c) (takeInput (.printString more :: rest) s)

/-- One step of whichever agent is next. A word offered while BUSY stays on the port and the block moves
(60_exceptions.md R216); with no input left, the block moves alone and an idle block stays as it is
(10_state.md R42; log 14). -/
def agentTurn (s : State) : Host.Outcome State Fault Refusal :=
  match s.inputs with
  | [] => .next (blockStep s)
  | .submit w :: rest => if s.busy then .next (blockStep s) else submitWord w (takeInput rest s)
  | .printString t :: rest => if s.busy then .next (blockStep s) else printTurn t rest s
  | .blockTurn :: rest => .next (blockStep (takeInput rest s))
  | .reset :: rest => .next (blockReset (takeInput rest s))
  | .resetInside k :: rest => .next (resetInside k (takeInput rest s))
  | .powerCycle :: rest => .next (powerUp (takeInput rest s))

/-- The machine with a word of the opcode table offered on an idle block's port, before anything else
the outside does (log 2, log 21). -/
def offerWord (s : State) (nbits w : Nat) : State :=
  { s with busy := false, curOp := none, pending := [],
           inputs := .submit (BitVec.ofNat 16 (w % 2 ^ nbits)) :: s.inputs }

end Sys2Proof.Machine
end

