-- ==== Sys2Proof/Machine/Step.lean ====
section
/-! DEFINITION. One step of the machine. A configuration that is not well-formed is refused: no run
under it has a meaning (10_state.md R32; log 12). -/

namespace Sys2Proof.Machine

def step (s : State) : Host.Outcome State Fault Refusal :=
  if cfgWf s.cfg then agentTurn s else .refused .illFormedConfig

/-- `s` with the word placed where the next step takes its request from: the request port (log 2). -/
def State.withFetchWord (s : State) (nbits w : Nat) : State := offerWord s nbits w

end Sys2Proof.Machine
end

