-- ==== Sys2Proof/Machine/Assembler.lean ====
section
/-! DEFINITION. The assembler syntax of 30_encoding.md R83 and the host-side expansion of PRINT_STRING
(R84; 42_lcd_commands.md R176): one source line to the request words it stands for, or a refusal. What
R83 leaves open about spacing, case and the character set is in log 25. -/

namespace Sys2Proof.Machine

/-- The words PRINT_STRING submits: one WRITE_CHAR per byte before the first 0x00 (30_encoding.md R84;
42_lcd_commands.md R176). -/
def printWords (text : List Byte) : List Word16 := (text.takeWhile (· ≠ 0)).map charWord

/-! ## A line with its operands read -/

/-- A source line (30_encoding.md R83, R84), its numbers read but not yet checked against a field. -/
inductive AsmLine where
  | blank
  | request (op : Op) (operands : List Nat)
  | word (n : Nat)
  | printString (text : List Nat)
  deriving DecidableEq, Repr

/-- A register-select operand: 0 or 1. -/
def operandBit (n : Nat) : Option Bool :=
  match n with
  | 0 => some false
  | 1 => some true
  | _ => none

/-- An operand of `w` bits: a value that does not fit is refused, never truncated (R83). -/
def operandBits (w n : Nat) : Option (BitVec w) :=
  if n < 2 ^ w then some (BitVec.ofNat w n) else none

/-- The request of a mnemonic with its operands in the order of R83, or a refusal. -/
def assembleRequest (op : Op) (operands : List Nat) : Option Instr :=
  match op, operands with
  | .commit, [v] => (operandBits 8 v).map .commit
  | .sendNibble, [r, p] => do
    let i := Instr.sendNibble (← operandBit r) (← operandBits 8 p)
    if i.wf then some i else none
  | .sendByte, [r, b] => do some (.sendByte (← operandBit r) (← operandBits 8 b))
  | .writeCommand, [b] => (operandBits 8 b).map .writeCommand
  | .writeChar, [b] => (operandBits 8 b).map .writeChar
  | .setCursor, [c, r] => do some (.setCursor (← operandBits 8 c) (← operandBits 3 r))
  | .init, [] => some .init
  | _, _ => none

/-- The request words of a source line, or a refusal (R83, R84). `.word` takes any raw word. -/
def assemble : AsmLine → Option (List Word16)
  | .blank => some []
  | .request op operands => (assembleRequest op operands).map fun i => [encode i]
  | .word n => (operandBits 16 n).map fun w => [w]
  | .printString text => (text.mapM (operandBits 8)).map printWords

/-! ## Reading the characters of a line -/

/-- A token of a line. -/
inductive Tok where
  | bare (cs : List Char)
  | comma
  | quoted (c : Char)
  | text (cs : List Char)
  deriving DecidableEq, Repr

/-- Where the reader is inside a line; `cs` is what it has read of the token, newest first. -/
inductive LexMode where
  | plain (cs : List Char)
  | afterQuote
  | closeQuote (c : Char)
  | inText (cs : List Char)
  deriving DecidableEq, Repr

/-- The bare token read so far, if there is one. -/
def flushBare (cs : List Char) : List Tok := if cs.isEmpty then [] else [.bare cs.reverse]

/-- The tokens of a line: `;` outside quotes starts a comment, `'c'` is a character and `"…"` a text (R83,
R84). DESIGN CHOICE (log 25): blanks and tabs separate, a comma or a quote ends the token it abuts, there
are no escapes, and an open quote at the end is refused. -/
def lexLine : LexMode → List Char → Option (List Tok)
  | .plain cs, [] => some (flushBare cs)
  | .plain cs, c :: rest =>
    if c = ';' then some (flushBare cs)
    else if c = ' ' ∨ c = '\t' then (lexLine (.plain []) rest).map (flushBare cs ++ ·)
    else if c = ',' then (lexLine (.plain []) rest).map (flushBare cs ++ .comma :: ·)
    else if c = '\'' then (lexLine .afterQuote rest).map (flushBare cs ++ ·)
    else if c = '\"' then (lexLine (.inText []) rest).map (flushBare cs ++ ·)
    else lexLine (.plain (c :: cs)) rest
  | .afterQuote, c :: rest => lexLine (.closeQuote c) rest
  | .closeQuote c, d :: rest =>
    if d = '\'' then (lexLine (.plain []) rest).map (.quoted c :: ·) else none
  | .inText cs, c :: rest =>
    if c = '\"' then (lexLine (.plain []) rest).map (.text cs.reverse :: ·)
    else lexLine (.inText (c :: cs)) rest
  | _, [] => none

/-- The value of a digit below `base`. -/
def digitValue (base : Nat) (c : Char) : Option Nat :=
  let n :=
    if '0' ≤ c ∧ c ≤ '9' then some (c.toNat - '0'.toNat)
    else if 'a' ≤ c ∧ c ≤ 'f' then some (c.toNat - 'a'.toNat + 10)
    else if 'A' ≤ c ∧ c ≤ 'F' then some (c.toNat - 'A'.toNat + 10)
    else none
  n.filter (· < base)

/-- The number a non-empty list of digits spells. -/
def readDigits (base : Nat) (cs : List Char) : Option Nat :=
  if cs.isEmpty then none
  else cs.foldl (fun n c => do some ((← n) * base + (← digitValue base c))) (some 0)

/-- A number in decimal or `0x` hex (R83). -/
def readNumber : List Char → Option Nat
  | '0' :: 'x' :: ds => readDigits 16 ds
  | ds => readDigits 10 ds

/-- A character's ASCII byte (R83). -/
def asciiByte (c : Char) : Option Nat := if c.toNat < 128 then some c.toNat else none

/-- The number an operand token stands for; a character may stand for any operand (DESIGN CHOICE, log 25). -/
def readOperand : Tok → Option Nat
  | .bare cs => readNumber cs
  | .quoted c => asciiByte c
  | _ => none

/-- Operands separated by commas (R83); a missing comma or one too many is refused (log 25). -/
def readOperands : List Tok → Option (List Nat)
  | [] => some []
  | [t] => (readOperand t).map ([·])
  | t :: .comma :: u :: rest => do some ((← readOperand t) :: (← readOperands (u :: rest)))
  | _ => none

/-- The mnemonics of R83, with the source's API names as aliases, in the case R83 writes them (log 25). -/
def mnemonics : List (String × Op) :=
  [("COMMIT", .commit), ("SEND_NIBBLE", .sendNibble), ("SEND_BYTE", .sendByte),
   ("WRITE_COMMAND", .writeCommand), ("writeCommand", .writeCommand),
   ("WRITE_CHAR", .writeChar), ("writeChar", .writeChar),
   ("SET_CURSOR", .setCursor), ("setCursor", .setCursor), ("INIT", .init)]

/-- The line of a token list: mnemonic first (R83). DESIGN CHOICE (log 25): a line with no token, empty or
with a comment only, stands for no words. -/
def readTokens : List Tok → Option AsmLine
  | [] => some .blank
  | .bare m :: rest =>
    if m = ".word".toList then
      match rest with
      | [t] => (readOperand t).map .word
      | _ => none
    else if m = "PRINT_STRING".toList ∨ m = "printString".toList then
      match rest with
      | [.text cs] => (cs.mapM asciiByte).map .printString
      | _ => none
    else match mnemonics.find? (fun p => p.1.toList = m) with
      | some (_, op) => (readOperands rest).map (.request op)
      | none => none
  | _ => none

/-- One line of assembler source (30_encoding.md R83, R84) to its request words, or a refusal. -/
def assembleLine (line : List Char) : Option (List Word16) := do
  assemble (← readTokens (← lexLine (.plain []) line))

end Sys2Proof.Machine
end

