-- ==== Sys2Proof/Machine/Timing.lean ====
section
/-! DEFINITION. Elapsed time, as a relation (log 15). The block's state holds no time (10_state.md R25)
and the spec bounds it from below only (R33, R36, 93_implementation_defined.md U16): a timing of a
list of events gives each event a duration, and it is legal when every duration is at least the
event's lower bound. Durations are in nanoseconds. An output changes at the end of its commit (log
16). -/

namespace Sys2Proof.Machine

/-- Events with the time each took. -/
abbrev Timed := List (Event × Rat)

/-- The events of a timing. -/
def eventsOf (tt : Timed) : List Event := tt.map (·.1)

/-- Every event took at least its lower bound (10_state.md R33, R36). -/
def legalTiming (c : Cfg) (tt : Timed) : Prop := ∀ x ∈ tt, minTime c x.1 ≤ x.2

/-- The elapsed time of a timing: events never overlap (70_reset_and_hazards.md R260). -/
def elapsed (tt : Timed) : Rat := (tt.map (·.2)).sum

/-- The sum of the lower bounds of a list of events (70_reset_and_hazards.md R257, R260). -/
def leastTime (c : Cfg) (es : List Event) : Rat := (es.map (minTime c)).sum

/-- The time before the first commit of a timing (43_lcd_capture.md R195(d)). -/
def leadIn : Timed → Rat
  | (.wait _, d) :: rest => d + leadIn rest
  | _ => 0

/-- Each capture of a timing with the time from it to the start of the next commit; the last capture has
no next commit (43_lcd_capture.md R195(c), (e)). `u` is the output before the timing starts and `last`
the capture whose time is still running. -/
def gapsFrom (u : Option Byte) (last : Option (Capture × Rat)) :
    Timed → List (Capture × Option Rat)
  | [] => (last.map fun k => (k.1, none)).toList
  | (.wait _, d) :: rest => gapsFrom u (last.map fun k => (k.1, k.2 + d)) rest
  | (.commit v, _) :: rest =>
    (last.map fun k => (k.1, some k.2)).toList
      ++ gapsFrom (some v) ((captureAt u (some v)).map fun k => (k, 0)) rest

/-- The captures of a timing that are certain to happen, each with its time (43_lcd_capture.md R193; log 24). -/
def certainGaps (u : Option Byte) (tt : Timed) : List (Capture × Option Rat) :=
  (gapsFrom u none tt).filter fun k => k.1 ≠ .maybe

/-- The Enable edges of a timing, each with how long RS and the data lines had been unchanged when it came,
0 where they change at the edge itself (43_lcd_capture.md R195(f), R196; 41_nibble_framer.md R124). `held` is
that time so far. From unknown outputs a first high Enable counts as a rising edge on fresh data, and a
falling edge that may be there is set aside (log 24). -/
def edgesFrom (u : Option Byte) (held : Rat) : Timed → List Rat
  | [] => []
  | (.wait _, d) :: rest => edgesFrom u (held + d) rest
  | (.commit v, d) :: rest =>
    match u with
    | some w =>
      let now := if sameData w v then held + d else 0
      (if enableOf w = enableOf v then [] else [now]) ++ edgesFrom (some v) now rest
    | none => (if enableOf v then [0] else []) ++ edgesFrom (some v) 0 rest

/-- The lengths of the Enable pulses of a timing that end in a falling edge (43_lcd_capture.md R195(a)):
from the end of the commit that raised Enable to the end of the one that lowered it. `sofar` is how
long Enable has been high. -/
def pulsesFrom (u : Option Byte) (sofar : Rat) : Timed → List Rat
  | [] => []
  | (.wait _, d) :: rest => pulsesFrom u (sofar + d) rest
  | (.commit v, d) :: rest =>
    match u with
    | some w =>
      if enableOf w then
        if enableOf v then pulsesFrom (some v) (sofar + d) rest
        else (sofar + d) :: pulsesFrom (some v) 0 rest
      else pulsesFrom (some v) 0 rest
    | none => pulsesFrom (some v) 0 rest

end Sys2Proof.Machine
end

