-- ==== Sys2Proof/Safety.lean ====
section
/-! DEFINITION. What counts as a safe state and a safe run, in the terms the claims use: the invariants
the spec states of the machine's state, a run at rest (10_state.md R42), and the timing obligations of
the LCD inputs (43_lcd_capture.md R195). -/

namespace Sys2Proof.Machine

/-- `BUSY = 1` exactly when `CUR_OP ≠ NONE`, exactly when `PENDING ≠ []` (10_state.md R28). -/
def State.BusyAgrees (s : State) : Prop :=
  s.busy = s.curOp.isSome ∧ s.busy = !s.pending.isEmpty

/-- Between events LATCH = 1, SCLK = 0, BUS_OWNED = 0 (40_transport.md R108; 10_state.md R28, R33). -/
def State.PinsIdle (s : State) : Prop :=
  s.latch = true ∧ s.sclk = false ∧ s.busOwned = false

/-- The stages hold the same byte between events, or both are unknown (40_transport.md R104;
10_state.md R26; 70_reset_and_hazards.md R242). -/
def State.StagesAgree (s : State) : Prop := s.shift.toByte? = s.out

/-- ERR holds a code the block produces (60_exceptions.md R212: codes 5, 6 and 7 never are). -/
def State.ErrProduced (s : State) : Prop := s.err.toNat ≤ 4

/-- A request being executed has passed its gate (60_exceptions.md R213, R214): INIT runs while
INIT_DONE = 0, a two-nibble request while INIT_DONE = 1. -/
def State.GateHolds (s : State) : Prop :=
  (s.curOp = some .init → s.initDone = false) ∧
  (s.curOp = some .sendByte ∨ s.curOp = some .writeCommand ∨ s.curOp = some .writeChar
    ∨ s.curOp = some .setCursor → s.initDone = true)

/-- The invariant of the machine between steps. -/
structure State.Inv (s : State) : Prop where
  busy   : s.BusyAgrees
  pins   : s.PinsIdle
  stages : s.StagesAgree
  err    : s.ErrProduced
  gate   : s.GateHolds

/-- A run is at rest (10_state.md R42): the block is idle and the outside does nothing more. -/
def State.AtRest (s : State) : Prop := s.busy = false ∧ s.pending = [] ∧ s.inputs = []

/-- The block is idle and the host offers `w`, with `rest` to follow (10_state.md R39). -/
def State.Offers (s : State) (w : Word16) (rest : List Input) : Prop :=
  s.busy = false ∧ s.inputs = .submit w :: rest

/-- Go on from a next state; a fault or a refusal ends the run. -/
def andThen (o : Host.Outcome State Fault Refusal)
    (f : State → Host.Outcome State Fault Refusal) : Host.Outcome State Fault Refusal :=
  match o with
  | .next t => f t
  | .fault r => .fault r
  | .refused r => .refused r

/-- `n` steps of the machine, as the interface's `Host.Core.run` takes them. -/
def runSteps : Nat → State → Host.Outcome State Fault Refusal
  | 0, s => .next s
  | n + 1, s => andThen (step s) (runSteps n)

/-- The state as the sequencer may depend on it: the stages and what the LCD saw are blotted out
(10_state.md R21, R23). -/
def State.blind (s : State) : State := { s with shift := .unknown, out := none, captures := [] }

/-! ## The host of the framer's transport law (43_lcd_capture.md R194) -/

/-- The requests that send a byte. -/
def byteRequest : Instr → Bool
  | .sendByte _ _ | .writeCommand _ | .writeChar _ | .setCursor _ _ => true
  | .commit _ | .sendNibble _ _ | .init => false

/-- The bytes an initialized block sends for a request, with their register select (43_lcd_capture.md
R194). A rejected request contributes nothing, as a SET_CURSOR out of range or a second INIT. -/
def bytesSent (c : Cfg) : Instr → List (Bool × Byte)
  | .sendByte rs b => [(rs, b)]
  | .writeCommand b => [(false, b)]
  | .writeChar b => [(true, b)]
  | .setCursor col row =>
    (c.rowOffset[row.toNat]?).toList.map fun offset => (false, cursorCommand col offset)
  | .commit _ | .sendNibble _ _ | .init => []

/-- What a host of R194 may do after its INIT: submit words other than COMMIT and SEND_NIBBLE, run
PRINT_STRING, or leave the block to move. -/
def framerInput : Input → Bool
  | .submit w => match decode w with
    | .request (.commit _) | .request (.sendNibble _ _) => false
    | _ => true
  | .printString _ | .blockTurn => true
  | .reset | .resetInside _ | .powerCycle => false

/-- The bytes such an input makes an initialized block send. -/
def inputBytes (c : Cfg) : Input → List (Bool × Byte)
  | .submit w => match decode w with
    | .request i => bytesSent c i
    | .illegal _ => []
  | .printString text => (text.takeWhile (· ≠ 0)).map fun b => (true, b)
  | _ => []

/-- The bytes INIT sends after its four raw nibbles (42_lcd_commands.md R175). -/
def initBytes : List (Bool × Byte) := [(false, 0x28), (false, 0x0C), (false, 0x06), (false, 0x01)]

/-- The four raw nibbles of INIT (42_lcd_commands.md R175). -/
def initSingles : List Transaction :=
  [.single ⟨false, 0x3⟩, .single ⟨false, 0x3⟩, .single ⟨false, 0x3⟩, .single ⟨false, 0x2⟩]

/-- SEND_BYTE of a command the LCD needs long time for, where the waits SRLCD gives a byte are shorter than
that time (70_reset_and_hazards.md R251; vector P5 of 95_test_vectors.md; log 18). -/
def sendsLongWithoutDelay (c : Cfg) : Instr → Bool
  | .sendByte rs b => !rs && isLong b && decide (c.tNibble + c.tByte < 1520000)
  | _ => false

/-- No request that performs an event follows such a SEND_BYTE, so that no further command or data comes
before its time is over; a rejected request performs none (43_lcd_capture.md R194, R195(c); log 18). -/
def longDelayKept (c : Cfg) : List Instr → Bool
  | [] => true
  | i :: rest =>
    (!sendsLongWithoutDelay c i || (rest.flatMap (expand c)).isEmpty) && longDelayKept c rest

/-! ## The obligations on the LCD inputs (43_lcd_capture.md R195), on a timing that starts with output
`u`; times in nanoseconds. Where the source gives no number, (b) and (f), the bound is R196's (log 29). The one
capture that unknown outputs may make at a first commit is set aside (R193; log 24). -/

/-- (a) Every Enable pulse lasts at least 450 ns. -/
def PulseWidthMet (u : Option Byte) (tt : Timed) : Prop := ∀ w ∈ pulsesFrom u 0 tt, 450 ≤ w

/-- The time `g` to the next commit, where there is one, is at least `least`. -/
def gapAtLeast (least : Rat) (g : Option Rat) : Prop := ∀ t, g = some t → least ≤ t

/-- (b) At least `T_NIBBLE` from a capture to the next commit; so RS and data also hold at least that long
after the falling edge. -/
def NibbleSettleMet (c : Cfg) (u : Option Byte) (tt : Timed) : Prop :=
  ∀ k ∈ certainGaps u tt, gapAtLeast c.tNibble k.2

/-- The two captures of a byte are the command 0x01 or 0x02. DESIGN CHOICE (log 30): a pair whose register
selects differ is no command, and neither is a pair with a capture of any value; what the controller does
with them is open (43_lcd_capture.md R191, R193; U4, U8 of 93_implementation_defined.md). -/
def isLongCommand (h l : Capture) : Bool :=
  match h, l with
  | .exact a, .exact b => !a.rs && !b.rs && isLong (a.nib ++ b.nib)
  | _, _ => false

/-- (c) over the captures after the four raw sends, taken in pairs: at least 1.52 ms after command 0x01
or 0x02 before any further command or data. -/
def longGapsMet : List (Capture × Option Rat) → Prop
  | (h, _) :: (l, g) :: more => (isLongCommand h l = true → gapAtLeast 1520000 g) ∧ longGapsMet more
  | _ => True

/-- (c) of a timing that starts with INIT. -/
def LongDelayMet (u : Option Byte) (tt : Timed) : Prop := longGapsMet ((certainGaps u tt).drop 4)

/-- (d) At least 40 ms before the first commit, from INIT's acceptance (log 28). -/
def PowerOnMet (tt : Timed) : Prop := 40000000 ≤ leadIn tt

/-- (e) Between the raw sends: at least 5 ms after the first, at least 100 µs after the second. -/
def ResetGapsMet (u : Option Byte) (tt : Timed) : Prop :=
  ∀ k1 g1 k2 g2 more, certainGaps u tt = (k1, g1) :: (k2, g2) :: more →
    gapAtLeast 5000000 g1 ∧ gapAtLeast 100000 g2

/-- (f) RS and data have been stable for at least one commit length, `8 / F_SCLK`, at every edge of Enable. -/
def DataStableMet (c : Cfg) (u : Option Byte) (tt : Timed) : Prop :=
  ∀ held ∈ edgesFrom u 0 tt, commitTime c ≤ held

/-- Every obligation is met: the premise of any claim about what the LCD makes of a run
(43_lcd_capture.md R197). -/
structure ObligationsMet (c : Cfg) (u : Option Byte) (tt : Timed) : Prop where
  pulse     : PulseWidthMet u tt
  settle    : NibbleSettleMet c u tt
  long      : LongDelayMet u tt
  powerOn   : PowerOnMet tt
  resetGaps : ResetGapsMet u tt
  stable    : DataStableMet c u tt

/-- The LCD reads the transactions `ts` in a timing that starts with INIT. It has a meaning only where every
obligation is met (43_lcd_capture.md R197; U6 of 93_implementation_defined.md; log 29): else it reads none.
PRESUMED (log 31): INIT starts from a state the controller can be reset from, the premise that
70_reset_and_hazards.md R247 names; after a block reset the spec leaves open whether it is (U24). -/
def LcdReads (c : Cfg) (u : Option Byte) (tt : Timed) (ts : List Transaction) : Prop :=
  ObligationsMet c u tt ∧
    ∃ cs, admits (certainCaptures u (eventsOf tt)) cs = true ∧ transactions cs = some ts

/-- Enable is low where the output is known (43_lcd_capture.md R193, R194: power-up, or a block reset that did
not abort a nibble with Enable high). -/
def EnableLow (u : Option Byte) : Prop := ∀ v, u = some v → enableOf v = false

end Sys2Proof.Machine
end

