-- ==== Sys2Proof/Certificates/Slice0/Obligations.lean ====
section
/-! DEFINITION. The statements about SRLCD, from the numbered rules of spec/. Nothing is proved here.
Lists of events are written out from the rules, not with the model's own expansion helpers, wherever a
rule or a vector of 95_test_vectors.md gives them. -/

open Sys2Proof Sys2Proof.Machine

namespace Sys2Proof.Certificates

/-- The state after the acceptance of a request (10_state.md R39). -/
def accepted (s : State) (op : Op) (events : List Event) : State :=
  { s with err := 0, curOp := some op, pending := events, busy := true }

/-- The eleven events of a byte (41_nibble_framer.md R129, R130): `r` is 0 or 1, the RS bit of every
packet; Enable is bit 1. -/
def elevenEvents (r b : Byte) : List Event :=
  let h := b &&& 0xF0
  let l := b <<< 4
  [.commit (h ||| r), .commit (h ||| 2 ||| r), .wait .enHigh, .commit (h ||| r), .wait .nibble,
   .commit (l ||| r), .commit (l ||| 2 ||| r), .wait .enHigh, .commit (l ||| r), .wait .nibble,
   .wait .byte]

/-- The offset of a row (10_state.md R35). -/
def offsetOfRow : Nat → Nat
  | 0 => 0x00
  | 1 => 0x40
  | 2 => 0x14
  | _ => 0x54

/-- Vector INIT-1 of 95_test_vectors.md: the first 25 events. -/
def initVectorRaw : List Event :=
  [.wait .powerOn,
   .commit 0x30, .commit 0x32, .wait .enHigh, .commit 0x30, .wait .nibble, .wait .reset1,
   .commit 0x30, .commit 0x32, .wait .enHigh, .commit 0x30, .wait .nibble, .wait .reset2,
   .commit 0x30, .commit 0x32, .wait .enHigh, .commit 0x30, .wait .nibble, .wait .reset3,
   .commit 0x20, .commit 0x22, .wait .enHigh, .commit 0x20, .wait .nibble, .wait .reset4]

/-- Vector INIT-1 of 95_test_vectors.md: the last 45 events, the four commands. -/
def initVectorCommands : List Event :=
  [.commit 0x20, .commit 0x22, .wait .enHigh, .commit 0x20, .wait .nibble,
   .commit 0x80, .commit 0x82, .wait .enHigh, .commit 0x80, .wait .nibble, .wait .byte,
   .commit 0x00, .commit 0x02, .wait .enHigh, .commit 0x00, .wait .nibble,
   .commit 0xC0, .commit 0xC2, .wait .enHigh, .commit 0xC0, .wait .nibble, .wait .byte] ++
  [.commit 0x00, .commit 0x02, .wait .enHigh, .commit 0x00, .wait .nibble,
   .commit 0x60, .commit 0x62, .wait .enHigh, .commit 0x60, .wait .nibble, .wait .byte,
   .commit 0x00, .commit 0x02, .wait .enHigh, .commit 0x00, .wait .nibble,
   .commit 0x10, .commit 0x12, .wait .enHigh, .commit 0x10, .wait .nibble, .wait .byte, .wait .long]

/-- The lower bounds of the table of 70_reset_and_hazards.md R257, in nanoseconds. -/
def boundOf (c : Cfg) : Instr → Rat
  | .commit _ => 8 * 1000000000 / c.fSclk
  | .sendNibble _ _ => 3 * (8 * 1000000000 / c.fSclk) + c.tEnHigh + c.tNibble
  | .sendByte _ _ | .writeChar _ | .setCursor _ _ =>
    6 * (8 * 1000000000 / c.fSclk) + 2 * c.tEnHigh + 2 * c.tNibble + c.tByte
  | .writeCommand b =>
    6 * (8 * 1000000000 / c.fSclk) + 2 * c.tEnHigh + 2 * c.tNibble + c.tByte
      + (if b = 0x01 ∨ b = 0x02 then c.tLong else 0)
  | .init =>
    36 * (8 * 1000000000 / c.fSclk) + 12 * c.tEnHigh + 12 * c.tNibble + 4 * c.tByte + c.tPowerOn
      + c.tReset1 + c.tReset2 + c.tReset3 + c.tReset4 + c.tLong

/-- The events of a list that are commits. -/
def commitsOf (es : List Event) : List Byte :=
  es.filterMap fun e => match e with
    | .commit v => some v
    | .wait _ => none

/-- The code a word is answered with by an idle block (60_exceptions.md R212, R217), the first cause that
holds: an illegal word, the gate of INIT, the row. -/
def answerCode (s : State) : Decoded → BitVec 3
  | .illegal _ => 1
  | .request (.commit _) | .request (.sendNibble _ _) => 0
  | .request (.sendByte _ _) | .request (.writeCommand _) | .request (.writeChar _) =>
    if s.initDone then 0 else 2
  | .request (.setCursor _ row) =>
    if s.initDone = false then 2 else if s.cfg.rows ≤ row.toNat then 4 else 0
  | .request .init => if s.initDone then 3 else 0

/-- The request passes its gate and, for SET_CURSOR, has a row below ROWS (60_exceptions.md R213 to R215). -/
def passes (s : State) : Instr → Prop
  | .commit _ | .sendNibble _ _ => True
  | .sendByte _ _ | .writeCommand _ | .writeChar _ => s.initDone = true
  | .setCursor _ row => s.initDone = true ∧ row.toNat < s.cfg.rows
  | .init => s.initDone = false

end Sys2Proof.Certificates

open Sys2Proof.Certificates

/-! ## Encoding and decoding -/

/-- Derived from 30_encoding.md R72, R73, R76: the word of every encodable request decodes to it. -/
def Obligations.DecodeOfEncodeIsTheRequest : Prop :=
  ∀ i : Instr, i.wf = true → decode (encode i) = .request i

/-- Derived from 30_encoding.md R75, R76: a legal word is the word of one request only. -/
def Obligations.LegalWordIsTheEncodingOfItsRequest : Prop :=
  ∀ (w : Word16) (i : Instr), decode w = .request i → i.wf = true ∧ encode i = w

/-- 30_encoding.md R75, its two cases as arithmetic on the word, and the rejection. -/
def Obligations.IllegalWordsAreRejected : Prop :=
  (∀ w : Word16, (∃ why, decode w = .illegal why) ↔
    (w.toNat / 4096 = 0 ∨ 8 ≤ w.toNat / 4096
      ∨ (w.toNat / 4096 ≠ 6 ∧ w.toNat / 512 % 8 ≠ 0)
      ∨ (w.toNat / 4096 ≠ 2 ∧ w.toNat / 4096 ≠ 3 ∧ w.toNat / 256 % 2 ≠ 0)
      ∨ (w.toNat / 4096 = 2 ∧ w.toNat % 16 ≠ 0)
      ∨ (w.toNat / 4096 = 7 ∧ w.toNat % 256 ≠ 0))) ∧
  (∀ (s : State) (w : Word16) (rest : List Input) (why : Illegal),
    cfgWf s.cfg = true → s.Offers w rest → decode w = .illegal why →
    step s = .next { s with err := 1, inputs := rest })

/-- 30_encoding.md R85: its examples, as source lines, words and requests. -/
def Obligations.EncodingExamples : Prop :=
  (assembleLine "COMMIT 0xA5".toList = some [0x10A5] ∧ decode 0x10A5 = .request (.commit 0xA5)) ∧
  (assembleLine "SEND_NIBBLE 0, 0x30".toList = some [0x2030] ∧
    decode 0x2030 = .request (.sendNibble false 0x30)) ∧
  (assembleLine "SEND_NIBBLE 1, 0x40".toList = some [0x2140] ∧
    decode 0x2140 = .request (.sendNibble true 0x40)) ∧
  (assembleLine "SEND_BYTE 1, 0x41".toList = some [0x3141] ∧
    decode 0x3141 = .request (.sendByte true 0x41)) ∧
  (assembleLine "WRITE_COMMAND 0x01".toList = some [0x4001] ∧
    decode 0x4001 = .request (.writeCommand 0x01)) ∧
  (assembleLine "WRITE_CHAR 'A'".toList = some [0x5041] ∧
    decode 0x5041 = .request (.writeChar 0x41)) ∧
  (assembleLine "SET_CURSOR 5, 1".toList = some [0x6205] ∧
    decode 0x6205 = .request (.setCursor 5 1)) ∧
  (assembleLine "SET_CURSOR 0, 3".toList = some [0x6600] ∧
    decode 0x6600 = .request (.setCursor 0 3)) ∧
  (assembleLine "INIT".toList = some [0x7000] ∧ decode 0x7000 = .request .init) ∧
  (decode 0x0000 = .illegal .op ∧ decode 0x1100 = .illegal .rs ∧ decode 0x2031 = .illegal .dl ∧
    decode 0x4201 = .illegal .row ∧ decode 0x7001 = .illegal .data ∧ decode 0x8000 = .illegal .op)

/-- Derived from 30_encoding.md R83: what an assembler makes of a mnemonic with numbers; a number that
does not fit its field is refused. The reading of spaces and letters is log 25's. -/
def Obligations.AssemblerRefusesWhatDoesNotFit : Prop :=
  (∀ v, assembleRequest .commit [v] =
    if v < 256 then some (.commit (BitVec.ofNat 8 v)) else none) ∧
  (∀ r p, assembleRequest .sendNibble [r, p] =
    if r < 2 ∧ p < 256 ∧ p % 16 = 0 then some (.sendNibble (r == 1) (BitVec.ofNat 8 p)) else none) ∧
  (∀ r b, assembleRequest .sendByte [r, b] =
    if r < 2 ∧ b < 256 then some (.sendByte (r == 1) (BitVec.ofNat 8 b)) else none) ∧
  (∀ b, assembleRequest .writeCommand [b] =
    if b < 256 then some (.writeCommand (BitVec.ofNat 8 b)) else none) ∧
  (∀ b, assembleRequest .writeChar [b] =
    if b < 256 then some (.writeChar (BitVec.ofNat 8 b)) else none) ∧
  (∀ c r, assembleRequest .setCursor [c, r] =
    if c < 256 ∧ r < 8 then some (.setCursor (BitVec.ofNat 8 c) (BitVec.ofNat 3 r)) else none) ∧
  assembleRequest .init [] = some .init ∧
  (∀ n, assemble (.word n) = if n < 65536 then some [BitVec.ofNat 16 n] else none)

/-! ## Submission -/

/-- Derived from 10_state.md R37, R39 and 42_lcd_commands.md R176: an idle block runs the request the offered
word decodes to, on the state with that word taken from the port, whether the host offers the word itself
or its PRINT_STRING loop offers a character's. -/
def Obligations.StepRunsTheDecodedRequest : Prop :=
  (∀ (s : State) (w : Word16) (rest : List Input) (i : Instr),
    cfgWf s.cfg = true → s.Offers w rest → decode w = .request i →
    step s = exec i { s with inputs := rest }) ∧
  (∀ (s : State) (c : Byte) (more : List Byte) (rest : List Input),
    cfgWf s.cfg = true → s.busy = false → s.inputs = .printString (c :: more) :: rest → c ≠ 0 →
    reqWord s = some (encode (.writeChar c)) ∧
    step s = exec (.writeChar c) { s with inputs := .printString more :: rest })

/-- Derived from 60_exceptions.md R216. That exec itself answers the state unchanged on a busy block is the
model's reading of the hold (log 13), and that the block moves in the step that holds the word is its choice
(log 1). -/
def Obligations.BusyBlockHoldsTheOfferedWord : Prop :=
  ∀ (s : State) (w : Word16) (rest : List Input),
    cfgWf s.cfg = true → s.Inv → s.busy = true → s.inputs = .submit w :: rest →
    step s = .next (blockStep s) ∧
    (blockStep s).inputs = s.inputs ∧ (blockStep s).err = s.err ∧
    (∀ i, exec i s = .next s) ∧
    (∃ t, runSteps s.pending.length s = .next t ∧ t.busy = false ∧ t.inputs = s.inputs ∧
      t.err = s.err)

/-- Derived from 40_transport.md R100, 41_nibble_framer.md R122, R125: an idle block takes COMMIT and
SEND_NIBBLE whether or not INIT has run, with the events the rules list. -/
def Obligations.RawRequestsAreAccepted : Prop :=
  ∀ s : State, s.busy = false →
    (∀ v, exec (.commit v) s = .next (accepted s .commit [.commit v])) ∧
    (∀ (rs : Bool) (p : Byte), p &&& 0x0F = 0 →
      exec (.sendNibble rs p) s = .next (accepted s .sendNibble
        (let r : Byte := if rs then 1 else 0
         [.commit (p ||| r), .commit (p ||| 2 ||| r), .wait .enHigh, .commit (p ||| r),
          .wait .nibble])))

/-- Derived from 41_nibble_framer.md R129, R130 and 42_lcd_commands.md R158: an initialized idle block
takes SEND_BYTE and WRITE_CHAR, each with its eleven events; WRITE_CHAR sends RS = 1. -/
def Obligations.ByteRequestsAreAccepted : Prop :=
  ∀ s : State, s.busy = false → s.initDone = true →
    (∀ (rs : Bool) (b : Byte), exec (.sendByte rs b) s =
      .next (accepted s .sendByte (elevenEvents (if rs then 1 else 0) b))) ∧
    (∀ b : Byte, exec (.writeChar b) s = .next (accepted s .writeChar (elevenEvents 1 b)))

/-- Derived from 42_lcd_commands.md R150, R151 and 30_encoding.md R82: an initialized idle block takes
WRITE_COMMAND, with the long delay after 0x01 and 0x02 only. -/
def Obligations.WriteCommandIsAccepted : Prop :=
  ∀ (s : State) (b : Byte), s.busy = false → s.initDone = true →
    exec (.writeCommand b) s = .next (accepted s .writeCommand
      (elevenEvents 0 b ++ if b = 0x01 ∨ b = 0x02 then [.wait .long] else []))

/-- Derived from 42_lcd_commands.md R165, R166 and 10_state.md R35: an initialized idle block takes
SET_CURSOR for every column and every row below ROWS, and sends the one command byte
`0x80 | ((col + offset) mod 256)`, short. -/
def Obligations.SetCursorIsAccepted : Prop :=
  ∀ (s : State) (col : Byte) (row : BitVec 3),
    cfgWf s.cfg = true → s.busy = false → s.initDone = true → row.toNat < s.cfg.rows →
    ∃ c : Byte, c.toNat = 128 ||| ((col.toNat + offsetOfRow row.toNat) % 256) ∧
      exec (.setCursor col row) s = .next (accepted s .setCursor (elevenEvents 0 c))

/-- Derived from 42_lcd_commands.md R170, R171 and vector INIT-1: an idle block that is not initialized
takes INIT, with the seventy events of the vector. -/
def Obligations.InitIsAccepted : Prop :=
  ∀ s : State, s.busy = false → s.initDone = false →
    exec .init s = .next (accepted s .init (initVectorRaw ++ initVectorCommands))

/-- 60_exceptions.md R213. -/
def Obligations.NotInitializedGate : Prop :=
  ∀ s : State, cfgWf s.cfg = true → s.busy = false → s.initDone = false →
    (∀ rs b, exec (.sendByte rs b) s = .next { s with err := 2 }) ∧
    (∀ b, exec (.writeCommand b) s = .next { s with err := 2 }) ∧
    (∀ b, exec (.writeChar b) s = .next { s with err := 2 }) ∧
    (∀ col row, exec (.setCursor col row) s = .next { s with err := 2 }) ∧
    (∀ v, ∃ t, exec (.commit v) s = .next t ∧ t.err = 0 ∧ t.busy = true) ∧
    (∀ rs p, ∃ t, exec (.sendNibble rs p) s = .next t ∧ t.err = 0 ∧ t.busy = true)

/-- 60_exceptions.md R214. -/
def Obligations.InitIsTakenOnceAfterEachReset : Prop :=
  (∀ s : State, s.busy = false → s.initDone = true → exec .init s = .next { s with err := 3 }) ∧
  (∀ s : State, s.busy = false → s.initDone = false →
    ∃ t, exec .init s = .next t ∧ t.err = 0 ∧ t.curOp = some .init) ∧
  (∀ s t : State, step s = .next t → s.initDone = true → t.initDone = false →
    ∃ rest, s.inputs = .reset :: rest ∨ s.inputs = .powerCycle :: rest ∨
      ∃ k, s.inputs = .resetInside k :: rest) ∧
  (∀ (s t : State) (rest : List Input), s.inputs = .reset :: rest → step s = .next t →
    t.initDone = false)

/-- 60_exceptions.md R215, with the column unchecked. -/
def Obligations.RowOutOfRangeIsRejected : Prop :=
  ∀ (s : State) (col : Byte) (row : BitVec 3),
    cfgWf s.cfg = true → s.busy = false → s.initDone = true →
    (s.cfg.rows ≤ row.toNat → exec (.setCursor col row) s = .next { s with err := 4 }) ∧
    (row.toNat < s.cfg.rows →
      ∃ t, exec (.setCursor col row) s = .next t ∧ t.err = 0 ∧ t.curOp = some .setCursor)

/-- 60_exceptions.md R217, with its two examples. -/
def Obligations.RejectionPriority : Prop :=
  (∀ (s : State) (w : Word16) (rest : List Input), cfgWf s.cfg = true → s.Offers w rest →
    ∃ t, step s = .next t ∧ t.err = answerCode s (decode w)) ∧
  (∀ s : State, s.initDone = false → s.cfg.rows = 2 → answerCode s (decode 0x6600) = 2) ∧
  (∀ s : State, answerCode s (decode 0x6700) = 1)

/-- 60_exceptions.md R211: after a submission that is not accepted, ERR is the one field written, and
the word is gone from the port; and the code stays until the next submission: a step that takes no word
and is no reset or power cycle leaves ERR as it was. -/
def Obligations.RejectionWritesOnlyErr : Prop :=
  (∀ (s : State) (w : Word16) (rest : List Input), cfgWf s.cfg = true → s.Offers w rest →
    answerCode s (decode w) ≠ 0 →
    step s = .next { s with err := answerCode s (decode w), inputs := rest }) ∧
  (∀ s t : State, step s = .next t → (reqReady s = false ∨ reqWord s = none) →
    (∀ rest, s.inputs ≠ .reset :: rest) → (∀ k rest, s.inputs ≠ .resetInside k :: rest) →
    (∀ rest, s.inputs ≠ .powerCycle :: rest) → t.err = s.err)

/-- Derived from 10_state.md R39 and 60_exceptions.md R211, the frame of all seven requests (COMMIT,
SEND_NIBBLE, SEND_BYTE, WRITE_COMMAND, WRITE_CHAR, SET_CURSOR, INIT): a submission changes nothing but
ERR, CUR_OP, PENDING and BUSY; the pins, SHIFT, OUT, INIT_DONE, TRACE, the delay counter, the
configuration, the captures and the inputs stay. -/
def Obligations.SubmissionFrame : Prop :=
  ∀ (i : Instr) (s t : State), exec i s = .next t →
    t = { s with err := t.err, curOp := t.curOp, pending := t.pending, busy := t.busy }

/-! ## Running a request -/

/-- Derived from 10_state.md R38, R40, R41, R43: an accepted request, with no block reset in between,
completes after exactly as many steps as it has events pending, and those events are what is added to
TRACE, in order. The clause on OUT is 40_transport.md R100's, and the one on what the LCD saw is
43_lcd_capture.md R191's and R193's, said of the model's own list `captures` (log 11). -/
def Obligations.AcceptedRequestCompletes : Prop :=
  ∀ s : State, cfgWf s.cfg = true → s.Inv → s.busy = true → s.inputs = [] →
    (∀ k, k < s.pending.length → ∃ t, runSteps k s = .next t ∧ t.busy = true ∧
      t.trace = s.trace ++ s.pending.take k) ∧
    ∃ t, runSteps s.pending.length s = .next t ∧ t.AtRest ∧ t.curOp = none ∧
      t.trace = s.trace ++ s.pending ∧
      t.out = outAfter s.out s.pending ∧
      t.captures = s.captures ++ capturesFrom s.out s.pending ∧
      t.initDone = (s.initDone || decide (s.curOp = some .init)) ∧
      t.err = s.err ∧ t.cfg = s.cfg ∧ t.PinsIdle

/-- Derived from 10_state.md R39, R40, R43: a request whose checks pass, offered to an idle block, runs
from its word to rest: its expansion is added to TRACE, ERR reads 0, and INIT sets INIT_DONE. OUT is
40_transport.md R100's, and `captures` 43_lcd_capture.md R191's and R193's, on the model's own list (log 11). -/
def Obligations.OfferedRequestRunsToRest : Prop :=
  ∀ (s : State) (i : Instr), cfgWf s.cfg = true → s.Inv → i.wf = true → passes s i →
    s.Offers (encode i) [] →
    ∃ t, runSteps (1 + (expand s.cfg i).length) s = .next t ∧ t.AtRest ∧ t.err = 0 ∧
      t.trace = s.trace ++ expand s.cfg i ∧
      t.out = outAfter s.out (expand s.cfg i) ∧
      t.captures = s.captures ++ capturesFrom s.out (expand s.cfg i) ∧
      t.initDone = (s.initDone || decide (i = .init))

/-- 10_state.md R40: the block step that performs the last pending event completes the request, and no
earlier one does. -/
def Obligations.CompletionWithTheLastEvent : Prop :=
  ∀ (s : State) (e : Event) (rest : List Event), s.PinsIdle → s.pending = e :: rest →
    (rest = [] → (blockStep s).busy = false ∧ (blockStep s).curOp = none ∧
      (s.curOp = some .init → (blockStep s).initDone = true) ∧
      (s.curOp ≠ some .init → (blockStep s).initDone = s.initDone)) ∧
    (rest ≠ [] → (blockStep s).busy = s.busy ∧ (blockStep s).curOp = s.curOp ∧
      (blockStep s).initDone = s.initDone)

/-- Derived from 10_state.md R38, R41: whatever a step does, short of a power cycle, TRACE keeps what it has
and grows by at most the first pending event. That a block reset keeps it is 10_state.md R25's and
70_reset_and_hazards.md R240's, against the glossary of 00_scope.md R18 (log 22), and that it has no entry for
a commit cut after its latch edge is the model's reading (log 10). -/
def Obligations.TraceGrowsInPendingOrder : Prop :=
  ∀ s t : State, s.PinsIdle → step s = .next t → (∀ rest, s.inputs ≠ .powerCycle :: rest) →
    t.trace = s.trace ∨
    ∃ e rest, s.pending = e :: rest ∧ t.trace = s.trace ++ [e] ∧ t.pending = rest

/-! ## Commits and waits -/

/-- Derived from 40_transport.md R100, 20_memory.md R53 and 10_state.md R38, R40: the block step that performs
`Commit(v)`, the last event or not; every field of the state is accounted for. -/
def Obligations.CommitEventEffect : Prop :=
  ∀ (s : State) (v : Byte) (rest : List Event), s.PinsIdle → s.pending = .commit v :: rest →
    blockStep s =
      { s with shift := Stage.ofByte v, out := some v, mosi := none,
               captures := s.captures ++ (captureAt s.out (some v)).toList,
               trace := s.trace ++ [.commit v], pending := rest,
               busy := if rest = [] then false else s.busy,
               curOp := if rest = [] then none else s.curOp,
               initDone := s.initDone || decide (rest = [] ∧ s.curOp = some .init) }

/-- Derived from 10_state.md R33, R38, R40: the block step that performs `Wait(P)`, the last event or not,
holds every output; it changes nothing but the delay counter, TRACE, PENDING and, with the last event, what
completion writes. -/
def Obligations.WaitEventHoldsOutputs : Prop :=
  ∀ (s : State) (p : Delay) (rest : List Event), s.pending = .wait p :: rest →
    ∃ n, blockStep s =
      { s with delayCounter := n, trace := s.trace ++ [.wait p], pending := rest,
               busy := if rest = [] then false else s.busy,
               curOp := if rest = [] then none else s.curOp,
               initDone := s.initDone || decide (rest = [] ∧ s.curOp = some .init) }

/-- 40_transport.md R102: the shift rule on a known stage, and eight edges on any stage. -/
def Obligations.ShiftStageTakesTheByte : Prop :=
  (∀ (b : Byte) (m : Bool),
    (Stage.ofByte b).shiftIn (some m) = Stage.ofByte ((b <<< 1) ||| (BitVec.ofBool m).setWidth 8)) ∧
  (∀ (g : Stage) (v : Byte),
    ((serialBits v).foldl (fun st m => st.shiftIn (some m)) g).toByte? = some v) ∧
  (∀ (v : Byte) (s : State), s.PinsIdle → (commitPart v 26 s).shift.toByte? = some v)

/-- 40_transport.md R104: OUT keeps its value through the first 26 lines of a commit, takes the stage at
the 27th (the rising edge of LATCH), and no other line and no wait writes it. -/
def Obligations.OutputsChangeOnlyAtTheLatchEdge : Prop :=
  (∀ (v : Byte) (s : State) (k : Nat), k ≤ 26 → (commitPart v k s).out = s.out) ∧
  (∀ (v : Byte) (s : State), s.PinsIdle →
    (commitPart v 27 s).out = (commitPart v 26 s).shift.toByte? ∧
    (performCommit v s).out = (commitPart v 27 s).out) ∧
  (∀ (s : State) (l : PinLine), l ≠ .latchHigh → (pinLine s l).out = s.out) ∧
  (∀ s : State, s.latch = true → (pinLine s .latchHigh).out = s.out) ∧
  (∀ s : State, s.latch = false → (pinLine s .latchHigh).out = s.shift.toByte?) ∧
  (∀ (s : State) (p : Delay), (performWait p s).out = s.out)

/-- Derived from 20_memory.md R52 and 40_transport.md R101: the j-th clock of a transfer samples bit 7 - j.
That MOSI is set up while SCLK is low is PRESUMED, by R101 itself (log 27). -/
def Obligations.SerialOrderIsMsbFirst : Prop :=
  ∀ (v : Byte) (s : State) (j : Nat), s.PinsIdle → j < 8 →
    ((commitPart v (2 + 3 * j + 1) s).sclk = false ∧
      (commitPart v (2 + 3 * j + 1) s).mosi = some (v.getLsbD (7 - j))) ∧
    ((commitPart v (2 + 3 * j + 2) s).sclk = true ∧
      (commitPart v (2 + 3 * j + 2) s).mosi = some (v.getLsbD (7 - j))) ∧
    (commitPart v (2 + 3 * j + 3) s).sclk = false

/-- Derived from 40_transport.md R101, R103, R108: the bus is owned from the first line of a commit to
the last and at no other time, and LATCH is low exactly from line 2 to just before its rising edge. -/
def Obligations.BusOwnedOnlyDuringACommit : Prop :=
  ∀ (v : Byte) (s : State) (k : Nat), s.PinsIdle → k ≤ 28 →
    ((commitPart v k s).busOwned = true ↔ (1 ≤ k ∧ k ≤ 27)) ∧
    ((commitPart v k s).latch = false ↔ (2 ≤ k ∧ k ≤ 26))

/-- Derived from 10_state.md R34 and 70_reset_and_hazards.md R261: the count loaded for a wait is the
least whole number of clock cycles that lasts the delay. That exactly the least is loaded is the
model's choice (log 5), and no claim on elapsed time uses the upper bound. -/
def Obligations.DelayCounterCoversTheDelay : Prop :=
  ∀ (c : Cfg) (p : Delay), cfgWf c = true →
    delayOf c p ≤ (waitCycles c p : Rat) * 1000000000 / c.fClk ∧
    (waitCycles c p : Rat) * 1000000000 / c.fClk < delayOf c p + 1000000000 / c.fClk ∧
    (∀ (s : State) (k : Nat), s.cfg = c → (waitPart p k s).delayCounter = waitCycles c p - k)

/-! ## Packets and expansions -/

/-- 41_nibble_framer.md R121. -/
def Obligations.PackLaws : Prop :=
  ∀ (rs en : Bool) (p : Byte),
    pack rs en p &&& 0xF0 = p &&& 0xF0 ∧
    pack rs en p &&& 0x01 = (if rs then 1 else 0) ∧
    pack rs en p &&& 0x02 = (if en then 2 else 0) ∧
    pack rs en p &&& 0x0C = 0 ∧
    pack rs true p = pack rs false p ||| 0x02

/-- 41_nibble_framer.md R126: the three packets of a nibble. -/
def Obligations.NibblePacketLaws : Prop :=
  ∀ (rs : Bool) (p : Byte), ∃ k1 k2 k3 : Byte,
    commitsOf (nibbleEvents rs p) = [k1, k2, k3] ∧
    k1 &&& enableBit = 0 ∧ k2 &&& enableBit ≠ 0 ∧ k3 &&& enableBit = 0 ∧
    k1 &&& 0xF1 = (p &&& 0xF0) ||| (if rs then 1 else 0) ∧
    k2 &&& 0xF1 = (p &&& 0xF0) ||| (if rs then 1 else 0) ∧
    k3 &&& 0xF1 = (p &&& 0xF0) ||| (if rs then 1 else 0) ∧
    k1 = k3

/-- 41_nibble_framer.md R132, with R131's flag: the captured packets of a byte give the byte back. -/
def Obligations.ByteRoundTrip : Prop :=
  ∀ (rs : Bool) (b : Byte), ∃ kh kl : Byte,
    (byteEvents rs b)[3]? = some (.commit kh) ∧ (byteEvents rs b)[8]? = some (.commit kl) ∧
    (kh &&& 0xF0) ||| ((kl &&& 0xF0) >>> 4) = b

/-- Derived from 41_nibble_framer.md R131 and 30_encoding.md R77: in every packet of a request that
sends a byte, bit 0 is the request's RS and bits 2 and 3 are 0. -/
def Obligations.EveryPacketCarriesItsRs : Prop :=
  ∀ (rs : Bool) (b v : Byte), v ∈ commitsOf (byteEvents rs b) →
    v.getLsbD 0 = rs ∧ v.getLsbD 2 = false ∧ v.getLsbD 3 = false

/-- 42_lcd_commands.md R155. -/
def Obligations.CommandDelayByTimingClass : Prop :=
  ∀ (c : Cfg) (b : Byte), cfgWf c = true → ∃ (pre : List Event) (v : Byte) (tail : List Event),
    expandWriteCommand b = pre ++ .commit v :: tail ∧
    tail = (if b = 0x01 ∨ b = 0x02 then [.wait .nibble, .wait .byte, .wait .long]
      else [.wait .nibble, .wait .byte]) ∧
    (b = 0x01 ∨ b = 0x02 →
      1520000 < c.tNibble + c.tByte + c.tLong ∧
      ∀ tt, eventsOf tt = tail → legalTiming c tt → c.tNibble + c.tByte + c.tLong ≤ elapsed tt)

/-- 42_lcd_commands.md R152. -/
def Obligations.LongDelayOnlyOnTheCommandPath : Prop :=
  (∀ b, Event.wait .long ∈ expandWriteCommand b ↔ (b = 0x01 ∨ b = 0x02)) ∧
  (∀ col offset, Event.wait .long ∈ expandSetCursor col offset ↔
    isLong (cursorCommand col offset) = true) ∧
  (expandInit.count (Event.wait .long) = 1 ∧ expandInit.getLast? = some (.wait .long)) ∧
  (∀ b, Event.wait .long ∉ expandWriteChar b) ∧
  (∀ rs b, Event.wait .long ∉ expandSendByte rs b)

/-- 30_encoding.md R79, row by row: commits, events, and no empty expansion. -/
def Obligations.ExpansionLengths : Prop :=
  (∀ v, (commitsOf (expandCommit v)).length = 1 ∧ (expandCommit v).length = 1) ∧
  (∀ rs p, (commitsOf (expandSendNibble rs p)).length = 3 ∧ (expandSendNibble rs p).length = 5) ∧
  (∀ rs b, (commitsOf (expandSendByte rs b)).length = 6 ∧ (expandSendByte rs b).length = 11) ∧
  (∀ b, (commitsOf (expandWriteCommand b)).length = 6 ∧
    (expandWriteCommand b).length = if b = 0x01 ∨ b = 0x02 then 12 else 11) ∧
  (∀ b, (commitsOf (expandWriteChar b)).length = 6 ∧ (expandWriteChar b).length = 11) ∧
  (∀ col offset, (commitsOf (expandSetCursor col offset)).length = 6 ∧
    (expandSetCursor col offset).length = 11) ∧
  ((commitsOf expandInit).length = 36 ∧ expandInit.length = 70)

/-! ## What the LCD captures -/

/-- 43_lcd_capture.md R191, on known and unknown old outputs. -/
def Obligations.CaptureRule : Prop :=
  (∀ v : Byte, captureAt none (some v) = if v &&& 0x02 = 0 then some .maybe else none) ∧
  (∀ u v : Byte, captureAt (some u) (some v) =
    if u &&& 0x02 ≠ 0 ∧ v &&& 0x02 = 0 then
      if u &&& 0xF1 = v &&& 0xF1 then some (.exact ⟨v &&& 0x01 ≠ 0, (v >>> 4).setWidth 4⟩)
      else some .any
    else none)

/-- Derived from 20_memory.md R58: a commit that does not lower Enable has no LCD effect, and one of the
value already held changes no output. -/
def Obligations.CommitWithoutFallingEnableIsInvisible : Prop :=
  ∀ (s : State) (u v : Byte), s.PinsIdle → s.out = some u →
    (u.getLsbD 1 = false ∨ v.getLsbD 1 = true → (performCommit v s).captures = s.captures) ∧
    (u = v → (performCommit v s).out = s.out ∧ (performCommit v s).captures = s.captures)

/-- Derived from 41_nibble_framer.md R128 and 43_lcd_capture.md R192: a nibble sent while Enable is low
is captured once, clean; every request but COMMIT leaves Enable low. -/
def Obligations.NibbleIsCapturedOnceAndClean : Prop :=
  (∀ (u : Byte) (rs : Bool) (p : Byte), u.getLsbD 1 = false →
    capturesFrom (some u) (nibbleEvents rs p) = [.exact ⟨rs, (p >>> 4).setWidth 4⟩]) ∧
  (∀ (c : Cfg) (u : Option Byte) (i : Instr), (∀ v, i ≠ .commit v) → expand c i ≠ [] →
    ∃ v, outAfter u (expand c i) = some v ∧ v.getLsbD 1 = false)

/-- Derived from 43_lcd_capture.md R193, R194: the captures of such a run and their grouping. The premise on
OUT is R193's: it is known with Enable low, or unknown, where the first commit may add one capture of any
value (R191, R254); setting that one aside is the model's reading (log 24). Nothing is claimed of what the
controller makes of the captures: R197 asks that every timing obligation be met for that, as
LcdReadsTheBytesSent does, and R247 that INIT find a controller it can reset (log 31). -/
def Obligations.FramerTransportLaw : Prop :=
  ∀ (s : State) (acts : List Input),
    cfgWf s.cfg = true → s.Inv → s.initDone = false → s.Offers 0x7000 acts →
    (∀ u, s.out = some u → u.getLsbD 1 = false) → (∀ a ∈ acts, framerInput a = true) →
    ∃ n t latched, runSteps n s = .next t ∧ t.AtRest ∧
      t.captures = s.captures ++ (if s.out = none then [.maybe] else []) ++ latched.map .exact ∧
      transactions latched = some (initSingles ++
        (initBytes ++ acts.flatMap (inputBytes s.cfg)).map fun x => .byte x.1 x.2 true)

/-! ## PRINT_STRING -/

/-- 42_lcd_commands.md R177, after INIT, for every text. -/
def Obligations.PrintStringSendsEachCharacter : Prop :=
  ∀ (s : State) (text : List Byte), cfgWf s.cfg = true → s.Inv → s.busy = false →
    s.initDone = true → s.inputs = [.printString text] →
    ∃ n t added, runSteps n s = .next t ∧ t.AtRest ∧ t.trace = s.trace ++ added ∧
      added = (text.takeWhile (· ≠ 0)).flatMap expandWriteChar ∧
      added.length = 11 * (text.takeWhile (· ≠ 0)).length ∧
      (commitsOf added).length = 6 * (text.takeWhile (· ≠ 0)).length ∧
      (∀ v ∈ commitsOf added, v.getLsbD 0 = true)

/-- Derived from 42_lcd_commands.md R176: before INIT every character is rejected, nothing is added, and
the loop runs to its end. -/
def Obligations.PrintStringBeforeInitAddsNothing : Prop :=
  ∀ (s : State) (text : List Byte), cfgWf s.cfg = true → s.busy = false → s.pending = [] →
    s.initDone = false → s.inputs = [.printString text] →
    ∃ n, runSteps n s = .next { s with
      inputs := [], err := if (text.takeWhile (· ≠ 0)) = [] then s.err else 2 }

/-! ## Reset, power and configuration -/

/-- Derived from 70_reset_and_hazards.md R240: between events, where every field is accounted for, and inside
an event, where `SHIFT`, `OUT` and the captures are those of R242. MOSI is unknown after it by 10_state.md
R25 (log 4). That TRACE has no entry for a commit cut after its latch edge is the model's reading (log 10),
and that a reset between events leaves the delay counter as it was is its choice (log 5). -/
def Obligations.BlockResetEffect : Prop :=
  (∀ (s : State) (rest : List Input), cfgWf s.cfg = true → s.latch = true →
    s.inputs = .reset :: rest →
    step s = .next { s with latch := true, sclk := false, mosi := none, busOwned := false,
                            busy := false, initDone := false, err := 0, curOp := none,
                            pending := [], inputs := rest }) ∧
  (∀ (s : State) (k : Nat) (rest : List Input), cfgWf s.cfg = true →
    s.inputs = .resetInside k :: rest →
    ∃ shift out captures n, step s =
      .next { s with latch := true, sclk := false, mosi := none, busOwned := false,
                     busy := false, initDone := false, err := 0, curOp := none, pending := [],
                     inputs := rest, shift := shift, out := out, captures := captures,
                     delayCounter := n })

/-- 70_reset_and_hazards.md R242: a reset that falls while LATCH is low in a commit loses both stages and
may make the LCD capture anything; one that falls between events or in a wait keeps them. The request
never completes. -/
def Obligations.ResetInTheMiddleOfARequest : Prop :=
  ∀ (s : State) (e : Event) (more : List Event) (k : Nat) (rest : List Input),
    cfgWf s.cfg = true → s.PinsIdle → s.pending = e :: more →
    (∀ v, e = .commit v → s.inputs = .resetInside k :: rest → 2 ≤ k → k ≤ 26 →
      ∃ t, step s = .next t ∧ t.shift = .unknown ∧ t.out = none ∧
        t.captures = s.captures ++ [.maybe] ∧ t.trace = s.trace ∧ t.pending = [] ∧
        t.curOp = none ∧ t.busy = false ∧ t.initDone = false ∧ t.PinsIdle) ∧
    (s.inputs = .reset :: rest ∨ ((∃ p, e = .wait p) ∧ s.inputs = .resetInside k :: rest) →
      ∃ t, step s = .next t ∧ t.shift = s.shift ∧ t.out = s.out ∧ t.captures = s.captures ∧
        t.trace = s.trace ∧ t.pending = [] ∧ t.curOp = none ∧ t.busy = false ∧
        t.initDone = false ∧ t.PinsIdle)

/-- Derived from 70_reset_and_hazards.md R240, R242 and 40_transport.md R101; the model's reading of the
lines at which LATCH is high (log 10). A reset on line 1 of a commit finds nothing latched; one after
the rising edge finds the byte latched; neither enters the commit in TRACE. -/
def Obligations.ResetAtTheEdgesOfACommit : Prop :=
  ∀ (s : State) (v : Byte) (more : List Event) (k : Nat) (rest : List Input),
    cfgWf s.cfg = true → s.PinsIdle → s.pending = .commit v :: more →
    s.inputs = .resetInside k :: rest →
    (k ≤ 1 → ∃ t, step s = .next t ∧ t.shift = s.shift ∧ t.out = s.out ∧
      t.captures = s.captures ∧ t.trace = s.trace ∧ t.pending = [] ∧ t.PinsIdle) ∧
    (27 ≤ k → ∃ t, step s = .next t ∧ t.shift = Stage.ofByte v ∧ t.out = some v ∧
      t.captures = s.captures ++ (captureAt s.out (some v)).toList ∧ t.trace = s.trace ∧
      t.pending = [] ∧ t.PinsIdle)

/-- 70_reset_and_hazards.md R241: after a block reset, between events or inside one (R242), and with nothing
submitted, the block stays as it is for ever. -/
def Obligations.AfterResetTheBlockWaits : Prop :=
  ∀ (s t : State), (s.inputs = [.reset] ∨ ∃ k, s.inputs = [.resetInside k]) →
    step s = .next t → ∀ n, runSteps n t = .next t

/-- Derived from 70_reset_and_hazards.md R243 and 10_state.md R25: the state after power-up, at reset and
after a power cycle. Nothing is claimed of the delay counter or of which configuration a build has
(log 5, log 6). -/
def Obligations.PowerUpState : Prop :=
  (∀ t : State, (t = State.reset ∨ ∃ s rest, s.inputs = .powerCycle :: rest ∧ step s = .next t) →
    t.shift = .unknown ∧ t.out = none ∧ t.latch = true ∧ t.sclk = false ∧ t.mosi = none ∧
    t.busOwned = false ∧ t.busy = false ∧ t.initDone = false ∧ t.err = 0 ∧ t.curOp = none ∧
    t.pending = [] ∧ t.trace = []) ∧
  (∀ (s : State) (rest : List Input), cfgWf s.cfg = true → s.inputs = .powerCycle :: rest →
    ∃ t, step s = .next t ∧ t.cfg = s.cfg ∧ t.inputs = rest)

/-- 10_state.md R32: the checks, and that a run has a meaning exactly under a well-formed configuration;
under one no step fails (40_transport.md R107). -/
def Obligations.RunsHaveMeaningExactlyWhenWellFormed : Prop :=
  (∀ c : Cfg, cfgWf c = true ↔
    ((c.rows = 2 ∧ c.rowOffset = [0x00, 0x40]) ∨
      (c.rows = 4 ∧ c.rowOffset = [0x00, 0x40, 0x14, 0x54])) ∧
    0 < c.fSclk ∧ 0 < c.fClk ∧ 40000000 ≤ c.tPowerOn ∧ 5000000 ≤ c.tReset1 ∧
    100000 ≤ c.tReset2 ∧ 100000 ≤ c.tReset3 ∧ 100000 ≤ c.tReset4 ∧ 450 ≤ c.tEnHigh ∧
    0 < c.tNibble ∧ 0 < c.tByte ∧ 1520000 ≤ c.tLong) ∧
  (∀ s : State, cfgWf s.cfg = false → step s = .refused .illFormedConfig) ∧
  (∀ s : State, cfgWf s.cfg = true → ∃ t, step s = .next t)

/-- Derived from 10_state.md R29 and 00_scope.md R9: no step writes a configuration value. -/
def Obligations.ConfigurationIsNeverWritten : Prop :=
  ∀ s t : State, step s = .next t → t.cfg = s.cfg

/-! ## Whole-machine rules -/

/-- Derived from 10_state.md R25: the invariant holds at reset. -/
def Obligations.ResetMeetsTheInvariant : Prop := State.reset.Inv

/-- Derived from 10_state.md R28, R33, 40_transport.md R104, R108, 60_exceptions.md R212 to R214: every
step keeps the invariant, from every state that meets it, whatever the outside does. -/
def Obligations.StepKeepsTheInvariant : Prop :=
  ∀ s t : State, s.Inv → step s = .next t → t.Inv

/-- Derived from 10_state.md R21, R23: nothing but the stages and the observation of the LCD depends on
the stages or on what the LCD saw. -/
def Obligations.SequencerNeverReadsTheRegister : Prop :=
  ∀ s1 s2 t1 : State, s1.blind = s2.blind → step s1 = .next t1 →
    ∃ t2, step s2 = .next t2 ∧ t1.blind = t2.blind

/-- Derived from 10_state.md R27, R40: INIT_DONE rises only in the step that completes INIT. -/
def Obligations.InitDoneRisesOnlyWhenInitCompletes : Prop :=
  ∀ s t : State, step s = .next t → s.PinsIdle → s.initDone = false → t.initDone = true →
    s.curOp = some .init ∧ (∃ e, s.pending = [e] ∧ t.trace = s.trace ++ [e]) ∧
    t.curOp = none ∧ t.busy = false

/-- Derived from 10_state.md R27: the layout of the status word and of `req_ready`. -/
def Obligations.StatusWordLayout : Prop :=
  ∀ s : State,
    (statusWord s).toNat =
      (if s.busy then 1 else 0) + (if s.initDone then 2 else 0) + 4 * s.err.toNat ∧
    reqReady s = !((statusWord s).getLsbD 0)

/-! ## Timing (lower bounds only) -/

/-- Derived from 70_reset_and_hazards.md R257, R260: the table of lower bounds from acceptance to
completion. -/
def Obligations.RequestTimeLowerBounds : Prop :=
  ∀ (c : Cfg) (i : Instr) (tt : Timed), cfgWf c = true → eventsOf tt = expand c i →
    expand c i ≠ [] → legalTiming c tt → boundOf c i ≤ elapsed tt

/-- 41_nibble_framer.md R127: the one Enable pulse of a nibble sent while Enable is low. -/
def Obligations.EnablePulseWidth : Prop :=
  ∀ (c : Cfg) (u : Byte) (rs : Bool) (p : Byte) (tt : Timed), cfgWf c = true →
    u.getLsbD 1 = false → eventsOf tt = nibbleEvents rs p → legalTiming c tt →
    ∃ w, pulsesFrom (some u) 0 tt = [w] ∧ c.tEnHigh + 8 * 1000000000 / c.fSclk ≤ w ∧ 450 ≤ w

/-- Derived from 43_lcd_capture.md R195, R196 and 70_reset_and_hazards.md R251: a trace of INIT followed
by byte requests, from power-up or from outputs with Enable low, meets obligations (a), (d), (e) and (f),
and meets (c) but where R251 and vector P5 of 95_test_vectors.md say it fails: a SEND_BYTE of command 0x01
or 0x02 that a request with events follows, under delays with T_NIBBLE + T_BYTE below 1.52 ms. R196 states
(c) without that exception; SendByteOfAClearCanBreakTheLongDelay says that (c) can fail in every trace so
excepted (log 18). (b) is EveryCaptureHasItsNibbleSettle. (d) is measured from INIT's acceptance, with the LCD powered by then (R246; log 28). From unknown outputs the
capture that the first commit may make is set aside (log 24). -/
def Obligations.TracesMeetTheTimingObligations : Prop :=
  ∀ (c : Cfg) (u : Option Byte) (reqs : List Instr) (tt : Timed), cfgWf c = true →
    EnableLow u → (∀ i ∈ reqs, byteRequest i = true) →
    eventsOf tt = expand c .init ++ reqs.flatMap (expand c) → legalTiming c tt →
    PulseWidthMet u tt ∧ PowerOnMet tt ∧ ResetGapsMet u tt ∧ DataStableMet c u tt ∧
    (longDelayKept c reqs = true → LongDelayMet u tt)

/-- Derived from 43_lcd_capture.md R196, its obligation (b) and the hold of (f): after every capture of such a
trace, SEND_BYTE of a clear included, at least `T_NIBBLE` passes before the next commit, so RS and data are
unchanged that long after the falling edge. From unknown outputs the capture that the first commit may make
is set aside (log 24). -/
def Obligations.EveryCaptureHasItsNibbleSettle : Prop :=
  ∀ (c : Cfg) (u : Option Byte) (reqs : List Instr) (tt : Timed), cfgWf c = true →
    EnableLow u → (∀ i ∈ reqs, byteRequest i = true) →
    eventsOf tt = expand c .init ++ reqs.flatMap (expand c) → legalTiming c tt →
    NibbleSettleMet c u tt

/-- Derived from 43_lcd_capture.md R194, R196, R197: but for the traces of R251 and vector P5 (log 18), every
obligation is met and the LCD reads the four singles of INIT and then exactly the bytes sent, and
nothing else, under log 24 and log 28 as above. That INIT finds a controller it can reset, whatever mode or
nibble phase a block reset left it in, is PRESUMED (70_reset_and_hazards.md R247; log 31), and is no
hypothesis here. -/
def Obligations.LcdReadsTheBytesSent : Prop :=
  ∀ (c : Cfg) (u : Option Byte) (reqs : List Instr) (tt : Timed), cfgWf c = true →
    EnableLow u → (∀ i ∈ reqs, byteRequest i = true) →
    longDelayKept c reqs = true →
    eventsOf tt = expand c .init ++ reqs.flatMap (expand c) → legalTiming c tt →
    ∀ ts, LcdReads c u tt ts ↔
      ts = initSingles ++
        (initBytes ++ reqs.flatMap (bytesSent c)).map fun x => .byte x.1 x.2 true

/-- Derived from 70_reset_and_hazards.md R251, 43_lcd_capture.md R197 and vector P5 of 95_test_vectors.md: in
every trace that the exception of TracesMeetTheTimingObligations sets apart (a clear or home sent with
SEND_BYTE, something performed after it, and a settle of the byte below 1.52 ms), the least legal timing
breaks obligation (c), and what the LCD reads in it has no meaning. P5 is the trace of INIT,
SEND_BYTE 0, 0x01, WRITE_CHAR 'X'. -/
def Obligations.SendByteOfAClearCanBreakTheLongDelay : Prop :=
  ∀ (c : Cfg) (u : Option Byte) (reqs : List Instr), cfgWf c = true → EnableLow u →
    (∀ i ∈ reqs, byteRequest i = true) → longDelayKept c reqs = false →
    ∃ tt, eventsOf tt = expand c .init ++ reqs.flatMap (expand c) ∧
      legalTiming c tt ∧ ¬ LongDelayMet u tt ∧ ∀ ts, ¬ LcdReads c u tt ts
end

