-- ==== Sys2Proof/Laws/Decode.lean ====
section
/-! SUPPORT. The fields of an assembled request word (30_encoding.md R70), and a word from its fields. -/

namespace Sys2Proof

section
variable (op : BitVec 4) (row : BitVec 3) (rs : Bool) (data : Byte)

/-- Every bit of an assembled word (30_encoding.md R70): DATA at 7:0, RS at 8, ROW at 11:9, OP at 15:12. -/
theorem getLsbD_requestWord (i : Nat) :
    (requestWord op row rs data).getLsbD i =
      if i < 8 then data.getLsbD i
      else if i < 9 then rs
      else if i < 12 then row.getLsbD (i - 9)
      else op.getLsbD (i - 12) := by
  have h : (requestWord op row rs data).getLsbD i =
      @BitVec.getLsbD (4 + 3 + 1 + 8) (op ++ row ++ BitVec.ofBool rs ++ data) i := rfl
  rw [h]
  simp only [BitVec.getLsbD_append, BitVec.getLsbD_ofBool]
  by_cases h8 : i < 8
  · simp [h8]
  · by_cases h9 : i < 9
    · have : i = 8 := by omega
      subst this; simp
    · by_cases h12 : i < 12
      · simp [h8, h9, h12, show ¬ i - 8 < 1 by omega, show i - 8 - 1 = i - 9 by omega,
          show i - 9 < 3 by omega]
      · simp [h8, h9, h12, show ¬ i - 8 < 1 by omega, show ¬ i - 8 - 1 < 3 by omega,
          show i - 8 - 1 - 3 = i - 12 by omega]

@[simp] theorem opField_requestWord : opField (requestWord op row rs data) = op := by
  ext i hi
  simp [opField, getLsbD_requestWord, show ¬ 12 + i < 8 by omega,
    show ¬ 12 + i < 9 by omega, BitVec.getLsbD_eq_getElem hi]

@[simp] theorem rowField_requestWord : rowField (requestWord op row rs data) = row := by
  ext i hi
  simp [rowField, getLsbD_requestWord, show ¬ 9 + i < 8 by omega,
    show 9 + i < 12 by omega, BitVec.getLsbD_eq_getElem hi]

@[simp] theorem rsField_requestWord : rsField (requestWord op row rs data) = rs := by
  simp only [rsField, getLsbD_requestWord]; simp

@[simp] theorem dataField_requestWord : dataField (requestWord op row rs data) = data := by
  ext i hi
  simp [dataField, getLsbD_requestWord, hi]

/-- DL is the low half of DATA. -/
theorem dlField_eq (w : Word16) : dlField w = (dataField w).extractLsb' 0 4 := by
  ext i hi
  simp [dlField, dataField]

end

/-- A word is made of its four fields (30_encoding.md R70). -/
theorem requestWord_fields (w : Word16) :
    requestWord (opField w) (rowField w) (rsField w) (dataField w) = w := by
  apply BitVec.eq_of_getLsbD_eq
  intro i hi
  rw [getLsbD_requestWord]
  simp only [opField, rowField, rsField, dataField, BitVec.getLsbD_extractLsb']
  split
  · simp [*]
  · split
    · have : i = 8 := by omega
      subst this; rfl
    · split
      · simp [show i - 9 < 3 by omega, show 9 + (i - 9) = i by omega]
      · simp [show i - 12 < 4 by omega, show 12 + (i - 12) = i by omega]

/-- The low half of a byte is zero exactly when masking it gives zero (30_encoding.md R73). -/
theorem low_half_zero (p : Byte) : (p &&& 0x0F#8 = 0#8) ↔ p.extractLsb' 0 4 = 0#4 := by
  revert p; decide

end Sys2Proof
end

