-- ==== Sys2Proof/Laws/Operands.lean ====
section
/-! SUPPORT. Laws of the shift stage, of what the LCD reads off a packet, of the two nibbles of a byte and of
the cursor command. -/

namespace Sys2Proof.Machine

@[simp] theorem toByte?_ofByte (v : Byte) : (Stage.ofByte v).toByte? = some v := by
  simp only [Stage.ofByte, Stage.toByte?]
  congr 1
  ext i hi
  simp only [BitVec.getElem_append]
  interval_cases i <;> simp [BitVec.getLsbD_eq_getElem]

@[simp] theorem toByte?_unknown : Stage.unknown.toByte? = none := rfl

/-- Eight rising edges fill the stage, whatever it held (40_transport.md R102). -/
theorem shiftIn_eight (g : Stage) (b7 b6 b5 b4 b3 b2 b1 b0 : Option Bool) :
    ((((((((g.shiftIn b7).shiftIn b6).shiftIn b5).shiftIn b4).shiftIn b3).shiftIn b2).shiftIn
      b1).shiftIn b0) = ⟨b7, b6, b5, b4, b3, b2, b1, b0⟩ := rfl

/-! ## What the wiring reads off a packet (41_nibble_framer.md R120; 20_memory.md R53) -/

@[simp] theorem enableOf_pack (rs en : Bool) (p : Byte) : enableOf (pack rs en p) = en := by
  revert rs en p; decide

@[simp] theorem rsOf_pack (rs en : Bool) (p : Byte) : rsOf (pack rs en p) = rs := by
  revert rs en p; decide

@[simp] theorem nibOf_pack (rs en : Bool) (p : Byte) : nibOf (pack rs en p) = (p >>> 4).setWidth 4 := by
  revert rs en p; decide

/-! ## The nibbles of a byte (41_nibble_framer.md R129) -/

theorem hi_nibble (b : Byte) : ((hi b) >>> 4).setWidth 4 = (b >>> 4).setWidth 4 := by
  revert b; decide

theorem lo_nibble (b : Byte) : ((lo b) >>> 4).setWidth 4 = b.setWidth 4 := by revert b; decide

theorem nibbles_append (b : Byte) : ((b >>> 4).setWidth 4 ++ b.setWidth 4 : BitVec 8) = b := by
  revert b; decide

/-! ## The cursor command (42_lcd_commands.md R165) -/

theorem cursorCommand_toNat (col offset : Byte) :
    (cursorCommand col offset).toNat = 128 ||| ((col.toNat + offset.toNat) % 256) := by
  simp [cursorCommand, cursorAddress]

/-- Bit 7 is set, so the command is never in the long class. -/
theorem isLong_cursorCommand (col offset : Byte) : isLong (cursorCommand col offset) = false := by
  have h : (cursorCommand col offset).getLsbD 7 = true := by simp [cursorCommand]
  simp only [isLong, Bool.or_eq_false_iff, beq_eq_false_iff_ne]
  constructor <;> intro hc <;> rw [hc] at h <;> revert h <;> decide

end Sys2Proof.Machine
end

