-- ==== Sys2Proof/Laws/State.lean ====
section
/-! SUPPORT. One lemma per field per update of the state: what a shared update writes and what it leaves,
so that no later proof unfolds a record update. -/

namespace Sys2Proof.Machine

section
variable (s : State) (c : ResultCode)

@[simp] theorem setErr_cfg : (setErr s c).cfg = s.cfg := rfl
@[simp] theorem setErr_shift : (setErr s c).shift = s.shift := rfl
@[simp] theorem setErr_out : (setErr s c).out = s.out := rfl
@[simp] theorem setErr_latch : (setErr s c).latch = s.latch := rfl
@[simp] theorem setErr_sclk : (setErr s c).sclk = s.sclk := rfl
@[simp] theorem setErr_mosi : (setErr s c).mosi = s.mosi := rfl
@[simp] theorem setErr_busOwned : (setErr s c).busOwned = s.busOwned := rfl
@[simp] theorem setErr_busy : (setErr s c).busy = s.busy := rfl
@[simp] theorem setErr_initDone : (setErr s c).initDone = s.initDone := rfl
@[simp] theorem setErr_err : (setErr s c).err = c.toBits := rfl
@[simp] theorem setErr_curOp : (setErr s c).curOp = s.curOp := rfl
@[simp] theorem setErr_pending : (setErr s c).pending = s.pending := rfl
@[simp] theorem setErr_trace : (setErr s c).trace = s.trace := rfl
@[simp] theorem setErr_delayCounter : (setErr s c).delayCounter = s.delayCounter := rfl
@[simp] theorem setErr_captures : (setErr s c).captures = s.captures := rfl
@[simp] theorem setErr_inputs : (setErr s c).inputs = s.inputs := rfl

end

section
variable (op : Op) (es : List Event) (s : State)

@[simp] theorem accept_cfg : (accept op es s).cfg = s.cfg := rfl
@[simp] theorem accept_shift : (accept op es s).shift = s.shift := rfl
@[simp] theorem accept_out : (accept op es s).out = s.out := rfl
@[simp] theorem accept_latch : (accept op es s).latch = s.latch := rfl
@[simp] theorem accept_sclk : (accept op es s).sclk = s.sclk := rfl
@[simp] theorem accept_mosi : (accept op es s).mosi = s.mosi := rfl
@[simp] theorem accept_busOwned : (accept op es s).busOwned = s.busOwned := rfl
@[simp] theorem accept_busy : (accept op es s).busy = true := rfl
@[simp] theorem accept_initDone : (accept op es s).initDone = s.initDone := rfl
@[simp] theorem accept_err : (accept op es s).err = 0 := rfl
@[simp] theorem accept_curOp : (accept op es s).curOp = some op := rfl
@[simp] theorem accept_pending : (accept op es s).pending = es := rfl
@[simp] theorem accept_trace : (accept op es s).trace = s.trace := rfl
@[simp] theorem accept_delayCounter : (accept op es s).delayCounter = s.delayCounter := rfl
@[simp] theorem accept_captures : (accept op es s).captures = s.captures := rfl
@[simp] theorem accept_inputs : (accept op es s).inputs = s.inputs := rfl

end

section
variable (rest : List Input) (s : State)

@[simp] theorem takeInput_cfg : (takeInput rest s).cfg = s.cfg := rfl
@[simp] theorem takeInput_shift : (takeInput rest s).shift = s.shift := rfl
@[simp] theorem takeInput_out : (takeInput rest s).out = s.out := rfl
@[simp] theorem takeInput_latch : (takeInput rest s).latch = s.latch := rfl
@[simp] theorem takeInput_sclk : (takeInput rest s).sclk = s.sclk := rfl
@[simp] theorem takeInput_mosi : (takeInput rest s).mosi = s.mosi := rfl
@[simp] theorem takeInput_busOwned : (takeInput rest s).busOwned = s.busOwned := rfl
@[simp] theorem takeInput_busy : (takeInput rest s).busy = s.busy := rfl
@[simp] theorem takeInput_initDone : (takeInput rest s).initDone = s.initDone := rfl
@[simp] theorem takeInput_err : (takeInput rest s).err = s.err := rfl
@[simp] theorem takeInput_curOp : (takeInput rest s).curOp = s.curOp := rfl
@[simp] theorem takeInput_pending : (takeInput rest s).pending = s.pending := rfl
@[simp] theorem takeInput_trace : (takeInput rest s).trace = s.trace := rfl
@[simp] theorem takeInput_delayCounter : (takeInput rest s).delayCounter = s.delayCounter := rfl
@[simp] theorem takeInput_captures : (takeInput rest s).captures = s.captures := rfl
@[simp] theorem takeInput_inputs : (takeInput rest s).inputs = rest := rfl

end

section
variable (p : Delay) (s : State)

@[simp] theorem performWait_cfg : (performWait p s).cfg = s.cfg := rfl
@[simp] theorem performWait_shift : (performWait p s).shift = s.shift := rfl
@[simp] theorem performWait_out : (performWait p s).out = s.out := rfl
@[simp] theorem performWait_latch : (performWait p s).latch = s.latch := rfl
@[simp] theorem performWait_sclk : (performWait p s).sclk = s.sclk := rfl
@[simp] theorem performWait_mosi : (performWait p s).mosi = s.mosi := rfl
@[simp] theorem performWait_busOwned : (performWait p s).busOwned = s.busOwned := rfl
@[simp] theorem performWait_busy : (performWait p s).busy = s.busy := rfl
@[simp] theorem performWait_initDone : (performWait p s).initDone = s.initDone := rfl
@[simp] theorem performWait_err : (performWait p s).err = s.err := rfl
@[simp] theorem performWait_curOp : (performWait p s).curOp = s.curOp := rfl
@[simp] theorem performWait_pending : (performWait p s).pending = s.pending := rfl
@[simp] theorem performWait_trace : (performWait p s).trace = s.trace := rfl
@[simp] theorem performWait_delayCounter : (performWait p s).delayCounter = 0 := rfl
@[simp] theorem performWait_captures : (performWait p s).captures = s.captures := rfl
@[simp] theorem performWait_inputs : (performWait p s).inputs = s.inputs := rfl

end

section
variable (s : State)

@[simp] theorem complete_cfg : (complete s).cfg = s.cfg := rfl
@[simp] theorem complete_shift : (complete s).shift = s.shift := rfl
@[simp] theorem complete_out : (complete s).out = s.out := rfl
@[simp] theorem complete_latch : (complete s).latch = s.latch := rfl
@[simp] theorem complete_sclk : (complete s).sclk = s.sclk := rfl
@[simp] theorem complete_mosi : (complete s).mosi = s.mosi := rfl
@[simp] theorem complete_busOwned : (complete s).busOwned = s.busOwned := rfl
@[simp] theorem complete_busy : (complete s).busy = false := rfl
@[simp] theorem complete_initDone : (complete s).initDone = (s.initDone || decide (s.curOp = some .init)) := rfl
@[simp] theorem complete_err : (complete s).err = s.err := rfl
@[simp] theorem complete_curOp : (complete s).curOp = none := rfl
@[simp] theorem complete_pending : (complete s).pending = s.pending := rfl
@[simp] theorem complete_trace : (complete s).trace = s.trace := rfl
@[simp] theorem complete_delayCounter : (complete s).delayCounter = s.delayCounter := rfl
@[simp] theorem complete_captures : (complete s).captures = s.captures := rfl
@[simp] theorem complete_inputs : (complete s).inputs = s.inputs := rfl

end

section
variable (s : State)

@[simp] theorem resetWrites_cfg : (resetWrites s).cfg = s.cfg := rfl
@[simp] theorem resetWrites_shift : (resetWrites s).shift = s.shift := rfl
@[simp] theorem resetWrites_out : (resetWrites s).out = s.out := rfl
@[simp] theorem resetWrites_latch : (resetWrites s).latch = true := rfl
@[simp] theorem resetWrites_sclk : (resetWrites s).sclk = false := rfl
@[simp] theorem resetWrites_mosi : (resetWrites s).mosi = none := rfl
@[simp] theorem resetWrites_busOwned : (resetWrites s).busOwned = false := rfl
@[simp] theorem resetWrites_busy : (resetWrites s).busy = false := rfl
@[simp] theorem resetWrites_initDone : (resetWrites s).initDone = false := rfl
@[simp] theorem resetWrites_err : (resetWrites s).err = 0 := rfl
@[simp] theorem resetWrites_curOp : (resetWrites s).curOp = none := rfl
@[simp] theorem resetWrites_pending : (resetWrites s).pending = [] := rfl
@[simp] theorem resetWrites_trace : (resetWrites s).trace = s.trace := rfl
@[simp] theorem resetWrites_delayCounter : (resetWrites s).delayCounter = s.delayCounter := rfl
@[simp] theorem resetWrites_captures : (resetWrites s).captures = s.captures := rfl
@[simp] theorem resetWrites_inputs : (resetWrites s).inputs = s.inputs := rfl

end

/-- A rejection writes ERR and nothing else (60_exceptions.md R211). -/
@[simp] theorem reject_eq_setErr (c : ResultCode) (s : State) : reject c s = setErr s c := rfl

end Sys2Proof.Machine
end

