-- ==== Sys2Proof/Laws/Ops.lean ====
section
/-! SUPPORT. What each shared operation can do, said once: submission, a commit, the block step, the two
resets, the step. Later proofs cite these and do not unfold the operations. -/

namespace Sys2Proof.Machine

/-! ## Submission (10_state.md R39) -/

/-- A submission holds, rejects or accepts. -/
theorem submitRequest_cases (op : Op) (es : List Event) (code : Option ResultCode) (s : State) :
    (s.busy = true ∧ submitRequest op es code s = s) ∨
    (s.busy = false ∧ ∃ c, code = some c ∧ submitRequest op es code s = reject c s) ∨
    (s.busy = false ∧ code = none ∧ submitRequest op es code s = accept op es s) := by
  cases h : s.busy <;> cases code <;> simp [submitRequest, h]

theorem submitRequest_busy (op : Op) (es : List Event) (code : Option ResultCode) {s : State}
    (h : s.busy = true) : submitRequest op es code s = s := by
  simp [submitRequest, h]

theorem submitRequest_accepts (op : Op) (es : List Event) {s : State} (h : s.busy = false) :
    submitRequest op es none s = accept op es s := by
  simp [submitRequest, h]

theorem submitRequest_rejects (op : Op) (es : List Event) (c : ResultCode) {s : State}
    (h : s.busy = false) : submitRequest op es (some c) s = reject c s := by
  simp [submitRequest, h]

/-- A well-formed configuration's table has a row below ROWS and no other (10_state.md R32, R35). -/
theorem rowOffset_isSome {c : Cfg} (h : cfgWf c = true) (n : Nat) :
    (∃ x, c.rowOffset[n]? = some x) ↔ n < c.rows := by
  have hr : rowOffsetTable c.rows = some c.rowOffset := by
    simp only [cfgWf, Bool.and_eq_true, beq_iff_eq] at h
    exact h.1.1.1.1.1.1.1.1.1.1.1
  have hl : c.rowOffset.length = c.rows := by
    unfold rowOffsetTable at hr
    split at hr
    · rw [← Option.some.inj hr, ‹c.rows = 2›]; rfl
    · rw [← Option.some.inj hr, ‹c.rows = 4›]; rfl
    · cases hr
  rw [← hl]
  constructor
  · rintro ⟨x, hx⟩
    exact (List.getElem?_eq_some_iff.mp hx).1
  · intro hn
    exact ⟨_, List.getElem?_eq_getElem hn⟩

/-! ## A commit (40_transport.md R100 to R104) -/

/-- What one whole commit does to the pins and the register, with the clock idle before it. -/
theorem performCommit_eq (v : Byte) {s : State} (h : s.sclk = false) :
    performCommit v s =
      { s with shift := Stage.ofByte v, out := some v, latch := true, sclk := false, mosi := none,
               busOwned := false,
               captures := s.captures ++ (captureAt s.out (some v)).toList } := by
  have hb := toByte?_ofByte v
  unfold Stage.ofByte at hb ⊢
  simp only [performCommit, commitLines, serialBits, bitLines, List.flatMap_cons,
    List.flatMap_nil, List.cons_append, List.nil_append, List.append_nil, List.foldl_cons,
    List.foldl_nil, pinLine, h, latchEdge, Stage.shiftIn, Bool.false_eq_true, if_false, hb]

/-- A commit in progress, between its latch-low line and its latch-high line: LATCH is low, the bus is
owned, and OUT, TRACE and the sequencer are as before. -/
theorem commitPart_inside (v : Byte) (s : State) (k : Nat) (h2 : 2 ≤ k) (h26 : k ≤ 26) :
    ∃ sh ck mo, commitPart v k s =
      { s with shift := sh, sclk := ck, mosi := mo, latch := false, busOwned := true } := by
  interval_cases k <;>
    simp only [commitPart, commitLines, serialBits, bitLines, List.flatMap_cons, List.flatMap_nil,
      List.cons_append, List.nil_append, List.append_nil, List.take_succ_cons, List.take_zero,
      List.foldl_cons, List.foldl_nil, pinLine] <;>
    exact ⟨_, _, _, rfl⟩

/-- A commit part outside those lines: nothing, the bus taken, all but the release, or all of it. -/
theorem commitPart_outside (v : Byte) {s : State} (hs : s.PinsIdle) (k : Nat)
    (hk : ¬ (2 ≤ k ∧ k ≤ 26)) :
    commitPart v k s = s ∨ commitPart v k s = { s with busOwned := true } ∨
    commitPart v k s = { performCommit v s with busOwned := true, mosi := some (v.getLsbD 0) } ∨
    commitPart v k s = performCommit v s := by
  obtain ⟨hl, hc, hb⟩ := hs
  rcases Nat.lt_or_ge k 28 with h | h
  · rcases (by omega : k = 0 ∨ k = 1 ∨ k = 27) with rfl | rfl | rfl
    · exact .inl rfl
    · exact .inr (.inl rfl)
    · right; right; left
      simp [commitPart, performCommit, commitLines, serialBits, bitLines, pinLine, latchEdge, hc]
  · right; right; right
    have : (commitLines v).length ≤ k := by simpa [commitLines, serialBits, bitLines] using h
    rw [commitPart, List.take_of_length_le this]; rfl

/-! ## The block step (10_state.md R38, R40) -/

theorem blockStep_idle {s : State} (h : s.pending = []) : blockStep s = s := by
  simp [blockStep, h]

/-- A block step with more events to come. -/
theorem blockStep_more {s : State} {e e' : Event} {rest : List Event}
    (h : s.pending = e :: e' :: rest) :
    blockStep s = { performEvent s e with
      trace := (performEvent s e).trace ++ [e], pending := e' :: rest } := by
  simp [blockStep, h]

/-- The block step that performs the last event. -/
theorem blockStep_last {s : State} {e : Event} (h : s.pending = [e]) :
    blockStep s = complete { performEvent s e with
      trace := (performEvent s e).trace ++ [e], pending := [] } := by
  simp [blockStep, h]

/-- An event leaves the sequencer, the flags, the trace, the configuration and the inputs alone. -/
theorem performEvent_frame (s : State) (e : Event) (h : s.sclk = false) :
    (performEvent s e).cfg = s.cfg ∧ (performEvent s e).busy = s.busy ∧
    (performEvent s e).initDone = s.initDone ∧ (performEvent s e).err = s.err ∧
    (performEvent s e).curOp = s.curOp ∧ (performEvent s e).pending = s.pending ∧
    (performEvent s e).trace = s.trace ∧ (performEvent s e).inputs = s.inputs := by
  cases e with
  | commit v => simp [performEvent, performCommit_eq v h]
  | wait p => simp [performEvent]

/-- What an event does to the output and the captures (40_transport.md R100, 43_lcd_capture.md R191). -/
theorem performEvent_lcd (s : State) (e : Event) (h : s.sclk = false) :
    (performEvent s e).out = outAfter s.out [e] ∧
    (performEvent s e).captures = s.captures ++ capturesFrom s.out [e] := by
  cases e with
  | commit v => simp [performEvent, performCommit_eq v h, outAfter, capturesFrom]
  | wait p => simp [performEvent, outAfter, capturesFrom]

/-- An event leaves the pins idle and the stages agreeing. -/
theorem performEvent_pins {s : State} (e : Event) (hp : s.PinsIdle) (ha : s.StagesAgree) :
    (performEvent s e).PinsIdle ∧ (performEvent s e).StagesAgree := by
  cases e with
  | commit v =>
    simp [performEvent, performCommit_eq v hp.2.1, State.PinsIdle, State.StagesAgree]
  | wait p => exact ⟨hp, ha⟩

/-! ## The two resets (70_reset_and_hazards.md R240, R242) -/

theorem blockReset_idle {s : State} (h : s.latch = true) : blockReset s = resetWrites s := by
  simp [blockReset, h]

/-- A reset while LATCH is low loses both stages and may make the LCD capture anything. -/
theorem blockReset_mid {s : State} (h : s.latch = false) :
    blockReset s = resetWrites { s with shift := .unknown, out := none,
                                        captures := s.captures ++ [.maybe] } := by
  simp [blockReset, h, captureAt]

/-! ## One step (10_state.md R20) -/

/-- Everything one step can do. -/
theorem step_cases {s t : State} (h : step s = .next t) :
    cfgWf s.cfg = true ∧
    ((s.inputs = [] ∧ t = blockStep s) ∨
     (s.busy = true ∧ (∃ i rest, s.inputs = i :: rest) ∧ t = blockStep s) ∨
     (∃ w rest, s.busy = false ∧ s.inputs = .submit w :: rest ∧
        submitWord w (takeInput rest s) = .next t) ∨
     (∃ text rest, s.busy = false ∧ s.inputs = .printString text :: rest ∧
        printTurn text rest s = .next t) ∨
     (∃ rest, s.inputs = .blockTurn :: rest ∧ t = blockStep (takeInput rest s)) ∨
     (∃ rest, s.inputs = .reset :: rest ∧ t = blockReset (takeInput rest s)) ∨
     (∃ k rest, s.inputs = .resetInside k :: rest ∧ t = resetInside k (takeInput rest s)) ∨
     (∃ rest, s.inputs = .powerCycle :: rest ∧ t = powerUp (takeInput rest s))) := by
  unfold step at h
  split at h
  · rename_i hc
    refine ⟨hc, ?_⟩
    unfold agentTurn at h
    rcases hi : s.inputs with _ | ⟨i, rest⟩
    · simp only [hi, Host.Outcome.next.injEq] at h
      exact .inl ⟨rfl, h.symm⟩
    · rw [hi] at h
      cases i <;> cases hb : s.busy <;> simp_all
  · cases h

/-- Every request's answer to a submission is one submission (10_state.md R39). -/
theorem exec_submits (i : Instr) {s : State} (hc : cfgWf s.cfg = true) :
    ∃ op es code, exec i s = .next (submitRequest op es code s) := by
  cases i with
  | setCursor col row =>
    simp only [exec, execSetCursor]
    split
    · exact ⟨_, _, _, rfl⟩
    · rename_i h
      obtain ⟨x, hx⟩ := (rowOffset_isSome hc row.toNat).mpr (by omega)
      rw [hx]; exact ⟨_, _, _, rfl⟩
  | commit v => exact ⟨_, _, _, rfl⟩
  | sendNibble rs p => exact ⟨_, _, _, rfl⟩
  | sendByte rs b => exact ⟨_, _, _, rfl⟩
  | writeCommand b => exact ⟨_, _, _, rfl⟩
  | writeChar b => exact ⟨_, _, _, rfl⟩
  | init => exact ⟨_, _, _, rfl⟩

/-- RS and the data lines do not move within a nibble (41_nibble_framer.md R122). -/
@[simp] theorem sameData_pack (rs en en' : Bool) (p : Byte) :
    sameData (pack rs en p) (pack rs en' p) = true := by
  revert rs en en' p; decide

/-- The word PRINT_STRING submits is that of WRITE_CHAR (42_lcd_commands.md R176; 30_encoding.md R84). -/
theorem charWord_eq_encode (c : Byte) : charWord c = encode (.writeChar c) := by
  revert c; decide

/-- What a turn of PRINT_STRING does, by what the loop offers on the port (10_state.md R37). -/
theorem printTurn_eq {text : List Byte} {rest : List Input} {s : State}
    (hi : s.inputs = .printString text :: rest) :
    printTurn text rest s =
      match reqWord s with
      | none => .next (takeInput rest s)
      | some w => submitWord w (takeInput (.printString text.tail :: rest) s) := by
  rcases text with _ | ⟨c, more⟩
  · simp [printTurn, reqWord, hi]
  · by_cases h : c = 0
    · simp [printTurn, reqWord, hi, h]
    · simp only [printTurn, reqWord, hi]
      rw [if_neg h, if_neg h]; rfl

end Sys2Proof.Machine
end

