-- ==== Sys2Proof/Laws/PerInstr.lean ====
section
/-! SUPPORT. What is said of every request as syntax, one lemma per constructor. Family `WordFields`: the
four fields of the request's word, as the table of 30_encoding.md R72 fills them. -/

namespace Sys2Proof.Laws.WordFields

open Sys2Proof

/-- The word `w` has these fields (30_encoding.md R70). -/
def HasFields (w : Word16) (op : Nat) (row : BitVec 3) (rs : Bool) (data : Byte) : Prop :=
  (opField w).toNat = op ∧ rowField w = row ∧ rsField w = rs ∧ dataField w = data

/-- The fields of a request's word (30_encoding.md R72). -/
def Statement (i : Instr) : Prop :=
  match i with
  | .commit value => HasFields (encode i) 0x1 0 false value
  | .sendNibble rs p => HasFields (encode i) 0x2 0 rs p
  | .sendByte rs b => HasFields (encode i) 0x3 0 rs b
  | .writeCommand b => HasFields (encode i) 0x4 0 false b
  | .writeChar b => HasFields (encode i) 0x5 0 false b
  | .setCursor col row => HasFields (encode i) 0x6 row false col
  | .init => HasFields (encode i) 0x7 0 false 0

theorem hasFields_requestWord (op : BitVec 4) (row : BitVec 3) (rs : Bool) (data : Byte) :
    HasFields (requestWord op row rs data) op.toNat row rs data := by simp [HasFields]

theorem commit (value : Byte) : Statement (.commit value) := hasFields_requestWord ..
theorem sendNibble (rs : Bool) (p : Byte) : Statement (.sendNibble rs p) := hasFields_requestWord ..
theorem sendByte (rs : Bool) (b : Byte) : Statement (.sendByte rs b) := hasFields_requestWord ..
theorem writeCommand (b : Byte) : Statement (.writeCommand b) := hasFields_requestWord ..
theorem writeChar (b : Byte) : Statement (.writeChar b) := hasFields_requestWord ..
theorem setCursor (col : Byte) (row : BitVec 3) : Statement (.setCursor col row) :=
  hasFields_requestWord ..
theorem init : Statement .init := hasFields_requestWord ..

end Sys2Proof.Laws.WordFields
end

