-- ==== Sys2Proof/Laws/Run.lean ====
section
/-! SUPPORT. Runs of several steps, what one block step leaves, and how outputs and captures pass over
a list of events. -/

namespace Sys2Proof.Machine

theorem andThen_next (t : State) (f : State → Host.Outcome State Fault Refusal) :
    andThen (.next t) f = f t := rfl

theorem runSteps_zero (s : State) : runSteps 0 s = .next s := rfl

theorem runSteps_succ_eq (n : Nat) (s : State) : runSteps (n + 1) s = andThen (step s) (runSteps n) :=
  rfl

theorem runSteps_succ {s t : State} (n : Nat) (h : step s = .next t) :
    runSteps (n + 1) s = runSteps n t := by
  rw [runSteps_succ_eq, h, andThen_next]

/-- A run is cut in two wherever its first part answers a next state. -/
theorem runSteps_add {n : Nat} (m : Nat) {s t : State} (h : runSteps n s = .next t) :
    runSteps (n + m) s = runSteps m t := by
  induction n generalizing s with
  | zero => cases h; rw [Nat.zero_add]
  | succ n ih =>
    rw [Nat.succ_add]
    rw [runSteps_succ_eq] at h ⊢
    generalize step s = o at h ⊢
    cases o with
    | next u => exact ih h
    | fault r => cases h
    | refused r => cases h

/-- One step of the interface's run, for any machine: the next state, a fault, or a refusal. -/
theorem core_run_next (M : Host.Core) (n : Nat) {s t : M.State} (h : M.step s = .next t) :
    M.run (n + 1) s = M.run n t := by
  rw [Host.Core.run, h]

theorem core_run_fault (M : Host.Core) (n : Nat) {s : M.State} {r : M.Fault}
    (h : M.step s = .fault r) : M.run (n + 1) s = .fault r := by
  rw [Host.Core.run, h]

theorem core_run_refused (M : Host.Core) (n : Nat) {s : M.State} {r : M.Refusal}
    (h : M.step s = .refused r) : M.run (n + 1) s = .refused r := by
  rw [Host.Core.run, h]

/-- Runs are those of the host's interface. -/
theorem runSteps_eq_core_run (n : Nat) (s : State) :
    runSteps n s = Host.Core.run Sys2Proof.core n s := by
  induction n generalizing s with
  | zero => rfl
  | succ n ih =>
    rw [runSteps_succ_eq]
    cases h : step s with
    | next t => exact (ih t).trans (core_run_next Sys2Proof.core n h).symm
    | fault r => exact (core_run_fault Sys2Proof.core n h).symm
    | refused r => exact (core_run_refused Sys2Proof.core n h).symm

theorem outAfter_append (u : Option Byte) (a b : List Event) :
    outAfter u (a ++ b) = outAfter (outAfter u a) b := by
  induction a generalizing u with
  | nil => rfl
  | cons e a ih => cases e <;> simp [outAfter, ih]

theorem capturesFrom_append (u : Option Byte) (a b : List Event) :
    capturesFrom u (a ++ b) = capturesFrom u a ++ capturesFrom (outAfter u a) b := by
  induction a generalizing u with
  | nil => rfl
  | cons e a ih => cases e <;> simp [outAfter, capturesFrom, ih]

/-- What a block step with something pending does to everything but the pins' momentary levels. -/
structure BlockStepSays (s t : State) (e : Event) (rest : List Event) : Prop where
  pending  : t.pending = rest
  trace    : t.trace = s.trace ++ [e]
  cfg      : t.cfg = s.cfg
  inputs   : t.inputs = s.inputs
  err      : t.err = s.err
  out      : t.out = outAfter s.out [e]
  captures : t.captures = s.captures ++ capturesFrom s.out [e]
  pins     : t.PinsIdle
  last     : rest = [] → t.busy = false ∧ t.curOp = none ∧
    t.initDone = (s.initDone || decide (s.curOp = some .init))
  more     : rest ≠ [] → t.busy = s.busy ∧ t.curOp = s.curOp ∧ t.initDone = s.initDone

theorem blockStep_says {s : State} {e : Event} {rest : List Event} (h : s.pending = e :: rest)
    (hp : s.PinsIdle) : BlockStepSays s (blockStep s) e rest := by
  obtain ⟨f1, f2, f3, f4, f5, f6, f7, f8⟩ := performEvent_frame s e hp.2.1
  obtain ⟨g1, g2⟩ := performEvent_lcd s e hp.2.1
  have hpi : (performEvent s e).PinsIdle := by
    cases e with
    | commit v => simp [performEvent, performCommit_eq v hp.2.1, State.PinsIdle]
    | wait p => exact hp
  rcases rest with _ | ⟨e', rest⟩
  · rw [blockStep_last h]
    constructor <;> first | exact hpi | simp [*]
  · rw [blockStep_more h]
    constructor <;> first | exact hpi | simp [*]

end Sys2Proof.Machine
end

