-- ==== Sys2Proof/Laws/Timing.lean ====
section
/-! SUPPORT. Timings of lists of events: how they split, and that a legal one lasts at least the sum of the
lower bounds (70_reset_and_hazards.md R260), and which captures of one are certain. -/

namespace Sys2Proof.Machine

/-- A timing of two lists of events is a timing of each. -/
theorem eventsOf_eq_append {tt : Timed} {a b : List Event} (h : eventsOf tt = a ++ b) :
    ∃ t1 t2, tt = t1 ++ t2 ∧ eventsOf t1 = a ∧ eventsOf t2 = b := List.map_eq_append_iff.mp h

theorem legalTiming_append {c : Cfg} {a b : Timed} :
    legalTiming c (a ++ b) ↔ legalTiming c a ∧ legalTiming c b := by
  simp [legalTiming, or_imp, forall_and]

theorem leastTime_le_elapsed (c : Cfg) (tt : Timed) (h : legalTiming c tt) :
    leastTime c (eventsOf tt) ≤ elapsed tt := by
  induction tt with
  | nil => exact le_refl _
  | cons x tt ih =>
    have hx := h x (List.mem_cons_self ..)
    have ht := ih fun y hy => h y (List.mem_cons_of_mem x hy)
    simp only [leastTime, eventsOf, elapsed, List.map_cons, List.sum_cons] at ht ⊢
    exact add_le_add hx ht

/-- Every delay exactly at its lower bound is a legal timing. -/
theorem legalTiming_least (c : Cfg) (es : List Event) :
    eventsOf (es.map fun e => (e, minTime c e)) = es ∧
    legalTiming c (es.map fun e => (e, minTime c e)) := by
  refine ⟨by simp [eventsOf, Function.comp_def], fun x hx => ?_⟩
  obtain ⟨e, _, rfl⟩ := List.mem_map.mp hx
  exact le_refl _

/-! ## The captures that are certain: all of them, where the output is known -/

/-- A commit from a known output never may capture: it captures or it does not (43_lcd_capture.md R191). -/
theorem captureAt_ne_maybe {u v : Byte} {k : Capture} (h : captureAt (some u) (some v) = some k) :
    k ≠ .maybe := by
  simp only [captureAt] at h
  split_ifs at h <;> cases h <;> simp

theorem capturesFrom_ne_maybe (es : List Event) (u : Byte) :
    ∀ k ∈ capturesFrom (some u) es, k ≠ .maybe := by
  induction es generalizing u with
  | nil => simp [capturesFrom]
  | cons e es ih =>
    cases e with
    | wait p => exact ih u
    | commit v =>
      intro k hk
      rcases List.mem_append.mp hk with hk | hk
      · exact captureAt_ne_maybe (Option.mem_toList.mp hk)
      · exact ih v k hk

theorem certainCaptures_some (u : Byte) (es : List Event) :
    certainCaptures (some u) es = capturesFrom (some u) es :=
  List.filter_eq_self.mpr fun k hk => by simpa using capturesFrom_ne_maybe es u k hk

theorem gapsFrom_ne_maybe (tt : Timed) (u : Byte) (last : Option (Capture × Rat))
    (hl : ∀ l, last = some l → l.1 ≠ .maybe) : ∀ k ∈ gapsFrom (some u) last tt, k.1 ≠ .maybe := by
  induction tt generalizing u last with
  | nil =>
    intro k hk
    cases last with
    | none => cases hk
    | some l => rcases List.mem_singleton.mp hk with rfl; exact hl l rfl
  | cons x tt ih =>
    obtain ⟨e, d⟩ := x
    cases e with
    | wait p =>
      refine ih u _ fun l h => ?_
      cases last with
      | none => cases h
      | some a => cases h; exact hl a rfl
    | commit v =>
      intro k hk
      rcases List.mem_append.mp hk with hk | hk
      · cases last with
        | none => cases hk
        | some l => rcases List.mem_singleton.mp hk with rfl; exact hl l rfl
      · refine ih v _ (fun l h => ?_) k hk
        cases hc : captureAt (some u) (some v) with
        | none => rw [hc] at h; cases h
        | some c => rw [hc] at h; cases h; exact captureAt_ne_maybe hc

theorem certainGaps_some (u : Byte) (tt : Timed) :
    certainGaps (some u) tt = gapsFrom (some u) none tt :=
  List.filter_eq_self.mpr fun k hk => by
    simpa using gapsFrom_ne_maybe tt u none (fun _ h => nomatch h) k hk

end Sys2Proof.Machine
end

