-- ==== Sys2Proof/Tests/Slice0.lean ====
section
/-! SUPPORT. The model's own tests. Expected values are from the spec's tables and worked examples, cited
with each test (95_test_vectors.md, "vector <id>"), or written out by hand from the encoding table of
30_encoding.md R72. The last part shows, for every statement with hypotheses, states and operands that
meet them. -/

open Sys2Proof Sys2Proof.Machine Sys2Proof.Certificates

namespace Sys2Proof.Tests

/-! ## States and views -/

/-- "Idle" with `OUT = v`, of 95_test_vectors.md. -/
def idleAt (v : Byte) : State := { State.reset with shift := Stage.ofByte v, out := some v }

/-- "Ready" of 95_test_vectors.md. -/
def ready : State := { idleAt 0x10 with initDone := true }

/-- The same state with four rows. -/
def fourRows (s : State) : State :=
  { s with cfg := { s.cfg with rows := 4, rowOffset := [0x00, 0x40, 0x14, 0x54] } }

/-- The same state with the outside's next actions. -/
def withInputs (s : State) (ins : List Input) : State := { s with inputs := ins }

/-- An initialized block in the middle of a request, with two events to go. -/
def writing : State :=
  { ready with busy := true, curOp := some .writeChar, pending := [.commit 0x11, .wait .byte] }

/-- INIT with its last event to go. -/
def finishing : State :=
  { idleAt 0x10 with busy := true, curOp := some .init, pending := [.wait .long] }

/-- The next state, if there is one. -/
def nextOf (o : Host.Outcome State Fault Refusal) : Option State :=
  match o with
  | .next t => some t
  | _ => none

/-- What is left to do after a submission. -/
def pendingOf (o : Host.Outcome State Fault Refusal) : List Event := ((nextOf o).map (·.pending)).getD []

/-- The status word after a submission. -/
def statusOf (o : Host.Outcome State Fault Refusal) : Option Byte := (nextOf o).map statusWord

/-! ## Well-formed requests: a byte whose low half is not 0 has no SEND_NIBBLE word (R73, R75) -/

theorem test_sendNibble_with_low_half_is_ill_formed : (Instr.sendNibble false 0x31).wf = false := by
  decide
theorem test_sendNibble_without_low_half_is_well_formed : (Instr.sendNibble false 0x30).wf = true := by
  decide
theorem test_three_rows_is_ill_formed :
    cfgWf { Cfg.reference with rows := 3, rowOffset := [0x00, 0x40, 0x14] } = false := by decide
theorem test_short_long_delay_is_ill_formed :
    cfgWf { Cfg.reference with tLong := 1519999 } = false := by decide
theorem test_delay_without_floor_must_be_positive :
    cfgWf { Cfg.reference with tByte := 0 } = false := by decide
theorem test_reference_is_well_formed : cfgWf Cfg.reference = true := by decide
theorem test_four_rows_is_well_formed : cfgWf (fourRows ready).cfg = true := by decide

/-! ## Words written out bit by bit: OP, ROW, RS, DATA (30_encoding.md R70, R72) -/

theorem test_decode_commit : decode 0b0001000010100101#16 = .request (.commit 0b10100101) := by decide
theorem test_decode_sendNibble :
    decode 0b0010000101000000#16 = .request (.sendNibble true 0b01000000) := by decide
theorem test_decode_sendByte :
    decode 0b0011000101000001#16 = .request (.sendByte true 0b01000001) := by decide
theorem test_decode_writeCommand :
    decode 0b0100000000000001#16 = .request (.writeCommand 0b00000001) := by decide
theorem test_decode_writeChar :
    decode 0b0101000001000001#16 = .request (.writeChar 0b01000001) := by decide
theorem test_decode_setCursor :
    decode 0b0110001000000101#16 = .request (.setCursor 0b00000101 0b001) := by decide
theorem test_decode_setCursor_row_7 :
    decode 0b0110111000010011#16 = .request (.setCursor 0b00010011 0b111) := by decide
theorem test_decode_init : decode 0b0111000000000000#16 = .request .init := by decide

/-- The illegal words of 95_test_vectors.md 2.1. -/
theorem test_decode_illegal_words :
    [0x0000#16, 0x1100, 0x2031, 0x4201, 0x41FF, 0x5100, 0x6700, 0x7001, 0x8000, 0xF000].map
        (fun w => (decode w).request?) =
      [none, none, none, none, none, none, none, none, none, none] := by decide

theorem test_table_word : decodeTableWord 16 0x6613 = some (.setCursor 19 3) := by decide

/-- A word of the table runs as the first request after reset. -/
theorem test_fetch_word :
    (nextOf (step (State.reset.withFetchWord 16 0x10A5))).map (·.pending) = some [.commit 0xA5] := by
  decide

/-! ## COMMIT (95_test_vectors.md 2.2) -/

/-- Vector TR-1: after three rising edges the low bits are 101 and the others are still unknown. -/
theorem test_commit_part_shifted :
    (commitPart 0xA5 (2 + 3 * 3) State.reset).shift =
      ⟨none, none, none, none, none, some true, some false, some true⟩ := by decide

/-- Vector TR-1: OUT is unknown up to the latch edge and 0xA5 after it. -/
theorem test_commit_latches :
    (commitPart 0xA5 26 State.reset).out = none ∧ (commitPart 0xA5 27 State.reset).out = some 0xA5 := by
  decide

/-! ## PACK and SEND_NIBBLE (95_test_vectors.md 2.3, 2.4) -/

theorem test_pack :
    [pack false false 0x30, pack false true 0x30, pack true false 0x40, pack true true 0x40,
      pack true true 0xFF, pack false false 0x0F, pack true true 0x00] =
    [0x30, 0x32, 0x41, 0x43, 0xF3, 0x00, 0x03] := by decide

/-- Vector NB-3. -/
theorem test_sendNibble_events :
    pendingOf (exec (.sendNibble true 0x40) ready) =
      [.commit 0x41, .commit 0x43, .wait .enHigh, .commit 0x41, .wait .nibble] := by decide

/-- Vector NB-5: from OUT = 0x32 the first commit makes a capture of any value. -/
theorem test_sendNibble_captures_from_enable_high :
    capturesFrom (some 0x32) (expandSendNibble false 0x50) = [.any, .exact ⟨false, 0x5⟩] := by decide

/-! ## SEND_BYTE, WRITE_COMMAND, WRITE_CHAR (95_test_vectors.md 2.5 to 2.7) -/

/-- Vector SB-4. -/
theorem test_sendByte_events :
    pendingOf (exec (.sendByte true 0xA5) ready) =
      [.commit 0xA1, .commit 0xA3, .wait .enHigh, .commit 0xA1, .wait .nibble,
       .commit 0x51, .commit 0x53, .wait .enHigh, .commit 0x51, .wait .nibble, .wait .byte] := by decide

/-- Vector SB-6. -/
theorem test_sendByte_from_idle_is_rejected :
    statusOf (exec (.sendByte true 0x41) (idleAt 0)) = some 0x08 := by decide

/-- Vector WC-2: the long delay after 0x02. -/
theorem test_writeCommand_long :
    pendingOf (exec (.writeCommand 0x02) ready) =
      [.commit 0x00, .commit 0x02, .wait .enHigh, .commit 0x00, .wait .nibble,
       .commit 0x20, .commit 0x22, .wait .enHigh, .commit 0x20, .wait .nibble,
       .wait .byte, .wait .long] := by decide

/-- Vector WC-3: no long delay after 0x03. -/
theorem test_writeCommand_short :
    pendingOf (exec (.writeCommand 0x03) ready) =
      [.commit 0x00, .commit 0x02, .wait .enHigh, .commit 0x00, .wait .nibble,
       .commit 0x30, .commit 0x32, .wait .enHigh, .commit 0x30, .wait .nibble, .wait .byte] := by decide

/-- Vector CH-2: no long delay on the data path. -/
theorem test_writeChar_events :
    pendingOf (exec (.writeChar 0x01) ready) =
      [.commit 0x01, .commit 0x03, .wait .enHigh, .commit 0x01, .wait .nibble,
       .commit 0x11, .commit 0x13, .wait .enHigh, .commit 0x11, .wait .nibble, .wait .byte] := by decide

/-- Vectors RJ-1 and RJ-5: NOT_INITIALIZED from Idle; busy with ERR = 0 from Ready after an error. -/
theorem test_writeChar_status :
    statusOf (exec (.writeChar 0x41) (idleAt 0)) = some 0x08 ∧
    statusOf (exec (.writeChar 0x41) { ready with err := 1 }) = some 0x03 := by decide

/-! ## SET_CURSOR (95_test_vectors.md 2.8) -/

/-- Vectors CUR-1 to CUR-11. -/
theorem test_cursor_commands :
    [cursorCommand 5 0x40, cursorCommand 0 0x00, cursorCommand 0 0x40, cursorCommand 15 0x40,
      cursorCommand 0 0x14, cursorCommand 0 0x54, cursorCommand 19 0x54, cursorCommand 0x40 0x40,
      cursorCommand 0xFF 0x40, cursorCommand 0x7F 0x00, cursorCommand 0x80 0x00] =
    [0xC5, 0x80, 0xC0, 0xCF, 0x94, 0xD4, 0xE7, 0x80, 0xBF, 0xFF, 0x80] := by decide

/-- Vectors CUR-12 (RJ-3), CUR-13 and CUR-14. -/
theorem test_setCursor_rejections :
    statusOf (exec (.setCursor 0 2) ready) = some 0x12 ∧
    statusOf (exec (.setCursor 0 7) (fourRows ready)) = some 0x12 ∧
    statusOf (exec (.setCursor 0 3) (idleAt 0)) = some 0x08 := by decide

/-! ## INIT, capture and host (95_test_vectors.md 2.9, 2.10, P1) -/

/-- Vector INIT-1: the captures and the last output. -/
theorem test_init_captures :
    capturesFrom (some 0x00) expandInit =
      ([(0x3 : Nib), 0x3, 0x3, 0x2, 0x2, 0x8, 0x0, 0xC, 0x0, 0x6, 0x0, 0x1].map
        fun n => .exact ⟨false, n⟩) ∧
    outAfter (some 0x00) expandInit = some 0x10 := by decide

/-- Vectors INIT-2 (RJ-2) and INIT-3: after a reset that left OUT = 0x32, one clean capture more. -/
theorem test_init_again :
    statusOf (exec .init ready) = some 0x0E ∧
    (capturesFrom (some 0x32) expandInit).take 2 = [.exact ⟨false, 0x3⟩, .exact ⟨false, 0x3⟩] ∧
    (capturesFrom (some 0x32) expandInit).length = 13 := by decide

/-- The table of 95_test_vectors.md 2.10. -/
theorem test_capture_table :
    [captureAt (some 0x32) (some 0x30), captureAt (some 0x43) (some 0x41),
      captureAt (some 0x30) (some 0x32), captureAt (some 0x30) (some 0x30),
      captureAt (some 0x32) (some 0x50), captureAt (some 0x33) (some 0x30),
      captureAt none (some 0x30), captureAt none (some 0x32), captureAt (some 0x02) (some 0x0C)] =
    [some (.exact ⟨false, 0x3⟩), some (.exact ⟨true, 0x4⟩), none, none, some .any, some .any,
      some .maybe, none, some (.exact ⟨false, 0x0⟩)] := by decide

/-- Program P4: `maybe` at the first commit, one clean capture, one of any value; what a controller
that latched nothing at the first admits. -/
theorem test_admitted_captures :
    capturesFrom none ([.commit 0x00] ++ expandSendNibble false 0x30 ++ [.commit 0x32, .commit 0x50]) =
      [.maybe, .exact ⟨false, 0x3⟩, .any] ∧
    admits [.maybe, .exact ⟨false, 0x3⟩, .any] [⟨false, 0x3⟩, ⟨true, 0x7⟩] = true ∧
    admits [.maybe, .exact ⟨false, 0x3⟩, .any] [⟨false, 0x3⟩] = false := by decide

/-- Example L1-5: `req_valid` and `req_word` while the host prints "AB" and its NUL (10_state.md R37). -/
theorem test_print_port :
    [reqWord (withInputs ready [.printString [0x41, 0x42, 0x00]]),
      reqWord (withInputs ready [.printString [0x42, 0x00]]),
      reqWord (withInputs ready [.printString [0x00]])] = [some 0x5041, some 0x5042, none] := by decide

/-- Obligation (f), by hand: RS and data change 3 ns before Enable rises and again as it falls. -/
theorem test_edges :
    edgesFrom (some 0x00) 0 [(.commit 0x40, 5), (.commit 0x42, 3), (.commit 0x50, 7)] = [3, 0] := by
  have h1 : sameData 0x00#8 0x40#8 = false ∧ enableOf 0x00#8 = false ∧ enableOf 0x40#8 = false := by decide
  have h2 : sameData 0x40#8 0x42#8 = true ∧ enableOf 0x42#8 = true := by decide
  have h3 : sameData 0x42#8 0x50#8 = false ∧ enableOf 0x50#8 = false := by decide
  simp [edgesFrom, h1, h2, h3]

/-- A low nibble that has not come (43_lcd_capture.md R193). -/
theorem test_pairs : pairs [⟨true, 0x4⟩, ⟨true, 0x8⟩, ⟨false, 0x1⟩] =
    [.byte true 0x48 true, .incomplete ⟨false, 0x1⟩] := by decide

/-- The character words of example L1-5, from a text with a NUL inside. -/
theorem test_print_words : printWords [0x41, 0x42, 0x00, 0x43] = [0x5041, 0x5042] := by decide

theorem test_print_line :
    assembleLine "PRINT_STRING \"AB\" ; host loop".toList = some [0x5041, 0x5042] := by decide

/-- A number that does not fit is refused, not truncated (30_encoding.md R83). -/
theorem test_assembler_refuses :
    assembleLine "WRITE_COMMAND 256".toList = none ∧ assembleLine "SET_CURSOR 0, 8".toList = none ∧
    assembleLine "SEND_NIBBLE 0, 0x31".toList = none := by decide

/-! ## Witnesses: a state and operands that meet the hypotheses of each statement

Where a hypothesis is on the next state, the witness shows the next state as well. -/

theorem inv_of {s : State} (h : s.busy = s.curOp.isSome ∧ s.busy = !s.pending.isEmpty)
    (hp : s.latch = true ∧ s.sclk = false ∧ s.busOwned = false) (hs : s.shift.toByte? = s.out)
    (he : s.err.toNat ≤ 4) (hg : s.GateHolds) : s.Inv := ⟨h, hp, hs, he, hg⟩

theorem test_ready_inv : ready.Inv :=
  inv_of (by decide) (by decide) (by decide) (by decide) (by unfold State.GateHolds; decide)

theorem test_writing_inv : writing.Inv :=
  inv_of (by decide) (by decide) (by decide) (by decide) (by unfold State.GateHolds; decide)

theorem test_idle_inv : (idleAt 0).Inv :=
  inv_of (by decide) (by decide) (by decide) (by decide) (by unfold State.GateHolds; decide)

theorem test_reset_inv : State.reset.Inv :=
  inv_of (by decide) (by decide) (by decide) (by decide) (by unfold State.GateHolds; decide)

/-- A well-formed configuration lets the step be the agent's turn. -/
theorem step_is_turn {s : State} (h : cfgWf s.cfg = true) : step s = agentTurn s := by simp [step, h]

theorem test_witness_DecodeOfEncodeIsTheRequest :
    (Instr.sendNibble true 0xF0).wf = true ∧ (Instr.setCursor 0xFF 7).wf = true := by decide

theorem test_witness_LegalWordIsTheEncodingOfItsRequest :
    decode 0x6EFF = .request (.setCursor 0xFF 7) ∧ decode 0x21F0 = .request (.sendNibble true 0xF0) := by
  decide

/-- Each of the five ways, at the edge of its range, and the offer. -/
theorem test_witness_IllegalWordsAreRejected :
    decode 0x0FFF = .illegal .op ∧ decode 0x8000 = .illegal .op ∧ decode 0x7E00 = .illegal .row ∧
    decode 0x1200 = .illegal .row ∧ decode 0x7100 = .illegal .rs ∧ decode 0x2001 = .illegal .dl ∧
    decode 0x70FF = .illegal .data ∧
    cfgWf (withInputs ready [.submit 0x8000]).cfg = true ∧
    (withInputs ready [.submit 0x8000]).Offers 0x8000 [] :=
  ⟨by decide, by decide, by decide, by decide, by decide, by decide, by decide, by decide, rfl, rfl⟩

theorem test_witness_StepRunsTheDecodedRequest :
    cfgWf (withInputs ready [.submit 0x5041, .reset]).cfg = true ∧
    (withInputs ready [.submit 0x5041, .reset]).Offers 0x5041 [.reset] ∧
    decode 0x5041 = .request (.writeChar 0x41) ∧
    (withInputs ready [.printString [0x41], .reset]).busy = false ∧ (0x41 : Byte) ≠ 0 :=
  ⟨by decide, ⟨rfl, rfl⟩, by decide, by decide, by decide⟩

theorem test_witness_BusyBlockHoldsTheOfferedWord :
    cfgWf (withInputs writing [.submit 0x5041]).cfg = true ∧ (withInputs writing [.submit 0x5041]).Inv ∧
    (withInputs writing [.submit 0x5041]).busy = true ∧
    (withInputs writing [.submit 0x5041]).inputs = [.submit 0x5041] :=
  ⟨by decide, inv_of (by decide) (by decide) (by decide) (by decide)
    (by unfold State.GateHolds; decide), rfl, rfl⟩

theorem test_witness_RawRequestsAreAccepted :
    State.reset.busy = false ∧ ready.busy = false ∧ (0xF0 : Byte) &&& 0x0F = 0 := by decide

/-- Also for WriteCommandIsAccepted and the first clause of InitIsTakenOnceAfterEachReset. -/
theorem test_witness_ByteRequestsAreAccepted : ready.busy = false ∧ ready.initDone = true := by decide

/-- Also for the ROW clauses of RowOutOfRangeIsRejected: the last row in range and the first beyond it, of
both geometries. -/
theorem test_witness_SetCursorIsAccepted :
    cfgWf ready.cfg = true ∧ ready.busy = false ∧ ready.initDone = true ∧
    (1 : BitVec 3).toNat < ready.cfg.rows ∧ ready.cfg.rows ≤ (2 : BitVec 3).toNat ∧
    cfgWf (fourRows ready).cfg = true ∧ (fourRows ready).busy = false ∧
    (fourRows ready).initDone = true ∧ (3 : BitVec 3).toNat < (fourRows ready).cfg.rows ∧
    (fourRows ready).cfg.rows ≤ (4 : BitVec 3).toNat := by decide

/-- Also for NotInitializedGate and the second clause of InitIsTakenOnceAfterEachReset. -/
theorem test_witness_InitIsAccepted :
    cfgWf State.reset.cfg = true ∧ State.reset.busy = false ∧ State.reset.initDone = false := by decide

/-- The last two clauses: a reset takes INIT_DONE from 1 to 0. -/
theorem test_witness_InitIsTakenOnceAfterEachReset :
    (withInputs ready [.reset]).inputs = [.reset] ∧ ready.initDone = true ∧
    (nextOf (step (withInputs ready [.reset]))).map (·.initDone) = some false := by decide

/-- An acceptable and a rejected word offered; the geometry and the gate of R217's examples. -/
theorem test_witness_RejectionPriority :
    cfgWf (withInputs (idleAt 0) [.submit 0x6600]).cfg = true ∧
    (withInputs (idleAt 0) [.submit 0x6600]).Offers 0x6600 [] ∧
    (idleAt 0).initDone = false ∧ (idleAt 0).cfg.rows = 2 :=
  ⟨by decide, ⟨rfl, rfl⟩, by decide, by decide⟩

/-- Each code that a rejection gives. -/
theorem test_witness_RejectionWritesOnlyErr :
    cfgWf (withInputs ready [.submit 0x7000]).cfg = true ∧
    (withInputs ready [.submit 0x7000]).Offers 0x7000 [] ∧
    answerCode ready (decode 0x0000) = 1 ∧ answerCode (idleAt 0) (decode 0x5041) = 2 ∧
    answerCode ready (decode 0x7000) = 3 ∧ answerCode ready (decode 0x6400) = 4 :=
  ⟨by decide, ⟨rfl, rfl⟩, by decide, by decide, by decide, by decide⟩

/-- Its second clause: a busy block, and an idle one whose host offers nothing, each with a code to keep. -/
theorem test_witness_ErrStaysUntilTheNextSubmission :
    (∀ s ∈ [{ writing with err := 1 }, { withInputs ready [.printString [0x00]] with err := 1 }],
      cfgWf s.cfg = true ∧ (reqReady s = false ∨ reqWord s = none) ∧ s.err = 1 ∧
      ∀ i ∈ s.inputs, i = .printString [0x00]) ∧
    step { writing with err := 1 } = .next (blockStep { writing with err := 1 }) :=
  ⟨by decide, step_is_turn (by decide)⟩

theorem test_witness_SubmissionFrame :
    nextOf (exec (.commit 0xA5) State.reset) = some (accepted State.reset .commit [.commit 0xA5]) ∧
    (nextOf (exec (.writeChar 0x41) State.reset)).map (·.err) = some 2 := by decide

theorem test_witness_AcceptedRequestCompletes :
    cfgWf writing.cfg = true ∧ writing.Inv ∧ writing.busy = true ∧ writing.inputs = [] ∧
    1 < writing.pending.length := ⟨by decide, test_writing_inv, rfl, rfl, by decide⟩

theorem test_witness_OfferedRequestRunsToRest :
    cfgWf (withInputs ready [.submit (encode (.setCursor 5 1))]).cfg = true ∧
    (withInputs ready [.submit (encode (.setCursor 5 1))]).Inv ∧ (Instr.setCursor 5 1).wf = true ∧
    passes (withInputs ready [.submit (encode (.setCursor 5 1))]) (.setCursor 5 1) ∧
    (withInputs ready [.submit (encode (.setCursor 5 1))]).Offers (encode (.setCursor 5 1)) [] :=
  ⟨by decide, inv_of (by decide) (by decide) (by decide) (by decide)
    (by unfold State.GateHolds; decide), rfl, by unfold passes; decide, rfl, rfl⟩

/-- The last event of INIT, the last event of another request, and an event that is not the last. -/
theorem test_witness_CompletionWithTheLastEvent :
    finishing.PinsIdle ∧ finishing.pending = [.wait .long] ∧ finishing.curOp = some .init ∧
    writing.PinsIdle ∧ writing.pending = [.commit 0x11, .wait .byte] ∧ writing.curOp ≠ some .init ∧
    (blockStep writing).PinsIdle ∧ (blockStep writing).pending = [.wait .byte] := by
  unfold State.PinsIdle; decide

theorem test_witness_TraceGrowsInPendingOrder :
    writing.PinsIdle ∧ step writing = .next (blockStep writing) ∧
    (∀ rest, writing.inputs ≠ .powerCycle :: rest) ∧ (blockStep writing).trace = [.commit 0x11] :=
  ⟨⟨rfl, rfl, rfl⟩, step_is_turn (by decide), by simp [writing, ready, idleAt, State.reset], by decide⟩

/-- A commit with more to come, and one that is the last event. -/
theorem test_witness_CommitEventEffect :
    writing.PinsIdle ∧ writing.pending = [.commit 0x11, .wait .byte] ∧
    ({ writing with curOp := some .commit, pending := [.commit 0x02] } : State).pending =
      [.commit 0x02] := by
  unfold State.PinsIdle; decide

theorem test_witness_WaitEventHoldsOutputs :
    ({ ready with pending := [.wait .nibble, .wait .byte] } : State).pending =
      [.wait .nibble, .wait .byte] ∧ finishing.pending = [.wait .long] := by decide

/-- Also for the statements on parts of a commit (OutputsChangeOnlyAtTheLatchEdge,
SerialOrderIsMsbFirst, BusOwnedOnlyDuringACommit): a state between events, and the last part, bit and
line of each range. -/
theorem test_witness_ShiftStageTakesTheByte :
    State.reset.PinsIdle ∧ State.reset.latch = true ∧ (pinLine State.reset .latchLow).latch = false ∧
    26 ≤ 26 ∧ 7 < 8 ∧ 28 ≤ 28 ∧ PinLine.clockHigh ≠ .latchHigh := by
  unfold State.PinsIdle; decide

theorem test_witness_DelayCounterCoversTheDelay :
    cfgWf Cfg.reference = true ∧ ready.cfg = Cfg.reference := by decide

theorem test_witness_EveryPacketCarriesItsRs : 0xA3 ∈ commitsOf (byteEvents true 0xA5) := by decide

theorem enableLow_unknown : EnableLow none := by intro v h; cases h

theorem enableLow_idle : EnableLow (some 0x10) := by intro v h; cases h; decide

/-- The timing is that of `legalTiming_least`, here and in the four witnesses below. -/
theorem test_witness_CommandDelayByTimingClass :
    cfgWf Cfg.reference = true ∧ ((0x01 : Byte) = 0x01 ∨ (0x01 : Byte) = 0x02) ∧
    (∃ tt, eventsOf tt = [.wait .nibble, .wait .byte, .wait .long] ∧ legalTiming Cfg.reference tt) :=
  ⟨by decide, .inl rfl, _, legalTiming_least Cfg.reference _⟩

theorem test_witness_RequestTimeLowerBounds :
    cfgWf Cfg.reference = true ∧ expand Cfg.reference (.writeCommand 0x02) ≠ [] ∧
    (∃ tt, eventsOf tt = expand Cfg.reference (.writeCommand 0x02) ∧ legalTiming Cfg.reference tt) :=
  ⟨by decide, by decide, _, legalTiming_least Cfg.reference _⟩

theorem test_witness_EnablePulseWidth :
    cfgWf Cfg.reference = true ∧ (0x10 : Byte).getLsbD 1 = false ∧
    (∃ tt, eventsOf tt = nibbleEvents true 0x40 ∧ legalTiming Cfg.reference tt) :=
  ⟨by decide, by decide, _, legalTiming_least Cfg.reference _⟩

/-- Requests that keep the long delay: a clear by SEND_BYTE at the end, a rejected SET_CURSOR after it. -/
def keepingRequests : List Instr :=
  [.writeCommand 0x01, .sendByte true 0x01, .setCursor 5 1, .sendByte false 0x01, .setCursor 0 7]

/-- From power-up and from a known output; also for EveryCaptureHasItsNibbleSettle and
LcdReadsTheBytesSent. -/
theorem test_witness_TracesMeetTheTimingObligations :
    cfgWf Cfg.reference = true ∧ EnableLow none ∧ EnableLow (some 0x10) ∧
    (∀ i ∈ keepingRequests, byteRequest i = true) ∧
    longDelayKept Cfg.reference keepingRequests = true ∧
    (∃ tt, eventsOf tt = expand Cfg.reference .init ++ keepingRequests.flatMap (expand Cfg.reference) ∧
      legalTiming Cfg.reference tt) :=
  ⟨by decide, enableLow_unknown, enableLow_idle, by decide,
    by simp [longDelayKept, keepingRequests, sendsLongWithoutDelay, isLong, expand, Cfg.reference],
    _, legalTiming_least Cfg.reference _⟩

/-- Vector P5, under delays whose sum is 150 µs. -/
theorem test_witness_SendByteOfAClearCanBreakTheLongDelay :
    cfgWf Cfg.reference = true ∧ EnableLow none ∧
    (∀ i ∈ [Instr.sendByte false 0x01, .writeChar 0x58], byteRequest i = true) ∧
    longDelayKept Cfg.reference [.sendByte false 0x01, .writeChar 0x58] = false := by
  refine ⟨by decide, enableLow_unknown, by decide, ?_⟩
  have h : Cfg.reference.tNibble + Cfg.reference.tByte < 1520000 := by norm_num [Cfg.reference]
  simp [longDelayKept, sendsLongWithoutDelay, isLong, h, expand, expandWriteChar, byteEvents, nibbleEvents]

/-- A commit that raises Enable, one that leaves it low, and one of the value held. -/
theorem test_witness_CommitWithoutFallingEnableIsInvisible :
    (idleAt 0x30).PinsIdle ∧ (idleAt 0x30).out = some 0x30 ∧ (0x30 : Byte).getLsbD 1 = false ∧
    (0x32 : Byte).getLsbD 1 = true ∧ (0x30 : Byte) = 0x30 := by
  unfold State.PinsIdle; decide

theorem test_witness_NibbleIsCapturedOnceAndClean :
    (0x10 : Byte).getLsbD 1 = false ∧ (∀ v, Instr.sendNibble true 0x40 ≠ .commit v) ∧
    expand Cfg.reference (.sendNibble true 0x40) ≠ [] :=
  ⟨by decide, by simp, by decide⟩

/-- From known outputs and from unknown ones. -/
theorem test_witness_FramerTransportLaw :
    (∀ s ∈ [withInputs (idleAt 0) [.submit 0x7000, .submit 0x6205, .printString [0x41], .blockTurn],
        withInputs State.reset [.submit 0x7000, .submit 0x6205, .printString [0x41], .blockTurn]],
      cfgWf s.cfg = true ∧ s.initDone = false ∧
      s.busy = false ∧ s.inputs = .submit 0x7000 :: [.submit 0x6205, .printString [0x41], .blockTurn] ∧
      (s.out = none ∨ s.out = some 0)) ∧
    (0 : Byte).getLsbD 1 = false ∧
    (∀ a ∈ [Input.submit 0x6205, .printString [0x41], .blockTurn], framerInput a = true) ∧
    (idleAt 0).Inv ∧ State.reset.Inv :=
  ⟨by decide, by decide, by decide, test_idle_inv, test_reset_inv⟩

theorem test_witness_PrintStringSendsEachCharacter :
    cfgWf (withInputs ready [.printString [0x41, 0x42, 0x00, 0x43]]).cfg = true ∧
    (withInputs ready [.printString [0x41, 0x42, 0x00, 0x43]]).Inv ∧
    (withInputs ready [.printString [0x41, 0x42, 0x00, 0x43]]).busy = false ∧
    (withInputs ready [.printString [0x41, 0x42, 0x00, 0x43]]).initDone = true ∧
    (withInputs ready [.printString [0x41, 0x42, 0x00, 0x43]]).inputs =
      [.printString [0x41, 0x42, 0x00, 0x43]] :=
  ⟨by decide, inv_of (by decide) (by decide) (by decide) (by decide)
    (by unfold State.GateHolds; decide), rfl, rfl, rfl⟩

theorem test_witness_PrintStringBeforeInitAddsNothing :
    cfgWf (withInputs (idleAt 0) [.printString [0x41]]).cfg = true ∧
    (withInputs (idleAt 0) [.printString [0x41]]).busy = false ∧
    (withInputs (idleAt 0) [.printString [0x41]]).pending = [] ∧
    (withInputs (idleAt 0) [.printString [0x41]]).initDone = false ∧
    (withInputs (idleAt 0) [.printString [0x41]]).inputs = [.printString [0x41]] := by decide

theorem test_witness_BlockResetEffect :
    cfgWf (withInputs writing [.reset]).cfg = true ∧ (withInputs writing [.reset]).latch = true ∧
    (withInputs writing [.reset]).inputs = [.reset] ∧
    (withInputs writing [.resetInside 28]).inputs = [.resetInside 28] := by decide

/-- Also for ResetAtTheEdgesOfACommit: inside a commit at both ends of each range, inside a wait, and
between events. -/
theorem test_witness_ResetInTheMiddleOfARequest :
    (∀ k ∈ [0, 1, 2, 26, 27, 28],
      cfgWf (withInputs writing [.resetInside k]).cfg = true ∧
      (withInputs writing [.resetInside k]).pending = .commit 0x11 :: [.wait .byte] ∧
      (withInputs writing [.resetInside k]).inputs = [.resetInside k] ∧
      (k ≤ 1 ∨ (2 ≤ k ∧ k ≤ 26) ∨ 27 ≤ k)) ∧
    (withInputs finishing [.resetInside 5]).pending = [.wait .long] ∧
    (withInputs finishing [.reset]).inputs = [.reset] ∧ writing.PinsIdle ∧ finishing.PinsIdle := by
  unfold State.PinsIdle; decide

theorem test_witness_AfterResetTheBlockWaits :
    (withInputs writing [.reset]).inputs = [.reset] ∧
    step (withInputs writing [.reset]) = .next (blockReset (withInputs writing [])) ∧
    (withInputs writing [.resetInside 5]).inputs = [.resetInside 5] ∧
    step (withInputs writing [.resetInside 5]) = .next (resetInside 5 (withInputs writing [])) :=
  ⟨rfl, step_is_turn (by decide), rfl, step_is_turn (by decide)⟩

theorem test_witness_PowerUpState :
    cfgWf (withInputs writing [.powerCycle, .blockTurn]).cfg = true ∧
    (withInputs writing [.powerCycle, .blockTurn]).inputs = [.powerCycle, .blockTurn] ∧
    step (withInputs writing [.powerCycle, .blockTurn]) =
      .next (withInputs State.reset [.blockTurn]) :=
  ⟨by decide, rfl, step_is_turn (by decide)⟩

theorem test_witness_RunsHaveMeaningExactlyWhenWellFormed :
    cfgWf ready.cfg = true ∧
    cfgWf ({ ready with cfg := { ready.cfg with rows := 3 } } : State).cfg = false := by decide

/-- Also for StepKeepsTheInvariant and SequencerNeverReadsTheRegister, with a state that differs only in
the stages and in what the LCD saw. -/
theorem test_witness_ConfigurationIsNeverWritten :
    step writing = .next (blockStep writing) ∧ writing.Inv ∧
    writing.blind = ({ writing with out := none, shift := .unknown, captures := [.any] } : State).blind :=
  ⟨step_is_turn (by decide), test_writing_inv, rfl⟩

theorem test_witness_InitDoneRisesOnlyWhenInitCompletes :
    step finishing = .next (blockStep finishing) ∧ finishing.PinsIdle ∧ finishing.initDone = false ∧
    (blockStep finishing).initDone = true :=
  ⟨step_is_turn (by decide), ⟨rfl, rfl, rfl⟩, rfl, by decide⟩

end Sys2Proof.Tests
end

section
/-! SUPPORT. A submission as one function of the request: its name, the code it is answered with and its
events (10_state.md R39; 60_exceptions.md R213 to R217), and the word that carries it. -/

open Sys2Proof.Certificates

namespace Sys2Proof

/-- A word made of a request's fields decodes to the request (30_encoding.md R75, R76). -/
theorem decode_encode {i : Instr} (h : i.wf = true) : decode (encode i) = .request i := by
  cases i with
  | sendNibble rs p =>
    have hp : p.extractLsb' 0 4 = 0#4 := (low_half_zero p).mp (by simpa [Instr.wf] using h)
    simp [decode, encode, dlField_eq, hp]
  | commit value => simp [decode, encode]
  | sendByte rs b => simp [decode, encode]
  | writeCommand b => simp [decode, encode]
  | writeChar b => simp [decode, encode]
  | setCursor col row => simp [decode, encode]
  | init => simp [decode, encode]

namespace Machine

/-- The name under which CUR_OP holds a request (10_state.md R39). -/
def opOf : Instr → Op
  | .commit _ => .commit
  | .sendNibble _ _ => .sendNibble
  | .sendByte _ _ => .sendByte
  | .writeCommand _ => .writeCommand
  | .writeChar _ => .writeChar
  | .setCursor _ _ => .setCursor
  | .init => .init

/-- The code a request is rejected with, if it is: its gate first, then the row (60_exceptions.md R217). -/
def rejection (s : State) : Instr → Option ResultCode
  | .commit _ | .sendNibble _ _ => none
  | .sendByte _ _ | .writeCommand _ | .writeChar _ => needsInit s
  | .setCursor _ row =>
    if s.cfg.rows ≤ row.toNat then some ((needsInit s).getD .rowOutOfRange) else needsInit s
  | .init => onlyBeforeInit s

/-- The submission of a request (10_state.md R39). -/
def submission (i : Instr) (s : State) : State :=
  submitRequest (opOf i) (expand s.cfg i) (rejection s i) s

theorem opOf_eq_init {i : Instr} : opOf i = .init ↔ i = .init := by cases i <;> simp [opOf]

theorem needsInit_eq_none {s : State} : needsInit s = none ↔ s.initDone = true := by
  simp [needsInit]

theorem onlyBeforeInit_eq_none {s : State} : onlyBeforeInit s = none ↔ s.initDone = false := by
  simp [onlyBeforeInit]

/-- No code is given exactly when the gate is open and the row is below ROWS (60_exceptions.md R213 to R215). -/
theorem rejection_eq_none {s : State} {i : Instr} : rejection s i = none ↔ passes s i := by
  cases i with
  | setCursor col row =>
    by_cases hr : s.cfg.rows ≤ row.toNat
    · simp [rejection, passes, hr]
    · simp [rejection, passes, hr, needsInit_eq_none, Nat.lt_of_not_le hr]
  | commit value => simp [rejection, passes]
  | sendNibble rs p => simp [rejection, passes]
  | sendByte rs b => exact needsInit_eq_none
  | writeCommand b => exact needsInit_eq_none
  | writeChar b => exact needsInit_eq_none
  | init => exact onlyBeforeInit_eq_none

/-- Whatever next state `exec` answers is that of the submission. -/
theorem exec_next {i : Instr} {s t : State} (h : exec i s = .next t) : t = submission i s := by
  cases i with
  | setCursor col row =>
    simp only [exec, execSetCursor] at h
    split at h
    · rename_i hr
      cases h
      simp [submission, rejection, hr, submitRequest]
    · rename_i hr
      split at h
      · rename_i offset ho
        cases h
        simp [submission, rejection, hr, expand, ho, opOf]
      · cases h
  | commit value => cases h; rfl
  | sendNibble rs p => cases h; rfl
  | sendByte rs b => cases h; rfl
  | writeCommand b => cases h; rfl
  | writeChar b => cases h; rfl
  | init => cases h; rfl

/-- Under a well-formed configuration every request has its submission. -/
theorem exec_eq_submission (i : Instr) {s : State} (hc : cfgWf s.cfg = true) :
    exec i s = .next (submission i s) := by
  obtain ⟨op, es, code, h⟩ := exec_submits i hc
  rw [h, exec_next h]

/-- An idle block takes a request whose checks pass. -/
theorem submission_accepts {i : Instr} {s : State} (hb : s.busy = false) (hp : passes s i) :
    submission i s = accept (opOf i) (expand s.cfg i) s := by
  rw [submission, rejection_eq_none.mpr hp, submitRequest_accepts _ _ hb]

/-- A submission is held, rejected, or accepted with its checks passed. -/
theorem submission_cases (i : Instr) (s : State) :
    (s.busy = true ∧ submission i s = s) ∨
    (s.busy = false ∧ ∃ c, submission i s = setErr s c) ∨
    (s.busy = false ∧ passes s i ∧ submission i s = accept (opOf i) (expand s.cfg i) s) := by
  obtain ⟨hb, h⟩ | ⟨hb, c, -, h⟩ | ⟨hb, hn, h⟩ :=
    submitRequest_cases (opOf i) (expand s.cfg i) (rejection s i) s
  · exact .inl ⟨hb, h⟩
  · exact .inr (.inl ⟨hb, c, h⟩)
  · exact .inr (.inr ⟨hb, rejection_eq_none.mp hn, h⟩)

/-- The expansion of a request that passes its checks has an event. -/
theorem expand_ne_nil {s : State} {i : Instr} (hc : cfgWf s.cfg = true) (hp : passes s i) :
    expand s.cfg i ≠ [] := by
  cases i with
  | setCursor col row =>
    obtain ⟨offset, ho⟩ := (rowOffset_isSome hc row.toNat).mpr hp.2
    simp [expand, ho, expandSetCursor, commandEvents, byteEvents]
  | commit value => simp [expand, expandCommit]
  | sendNibble rs p => simp [expand, expandSendNibble, nibbleEvents]
  | sendByte rs b => simp [expand, expandSendByte, byteEvents]
  | writeCommand b => simp [expand, expandWriteCommand, commandEvents, byteEvents]
  | writeChar b => simp [expand, expandWriteChar, byteEvents]
  | init => simp [expand, expandInit, initEvents]

end Machine

end Sys2Proof
end

section
/-! SUPPORT. One step as a move of one agent (10_state.md R20): which operation gives the next state. -/

open Sys2Proof.Certificates

namespace Sys2Proof.Machine

/-- The next states of `s`, by who moves: the block, the host (its text at an end, its request rejected or
accepted), the reset input or the power switch. `rest` is what the outside still does. -/
inductive Move (s : State) : State → Prop where
  | block (rest : List Input) : Move s (blockStep (takeInput rest s))
  | endText (rest : List Input) : Move s (takeInput rest s)
  | reject (rest : List Input) (c : ResultCode) (hb : s.busy = false) :
      Move s (setErr (takeInput rest s) c)
  | accept (rest : List Input) (i : Instr) (hb : s.busy = false) (hp : passes s i)
      (hne : expand s.cfg i ≠ []) : Move s (accept (opOf i) (expand s.cfg i) (takeInput rest s))
  | reset (rest : List Input) : Move s (blockReset (takeInput rest s))
  | resetInside (rest : List Input) (k : Nat) : Move s (resetInside k (takeInput rest s))
  | powerCycle (rest : List Input) (hi : s.inputs = .powerCycle :: rest) :
      Move s (powerUp (takeInput rest s))

/-- The checks of a request do not read the inputs. -/
theorem passes_takeInput (rest : List Input) (s : State) (i : Instr) :
    passes (takeInput rest s) i ↔ passes s i := by cases i <;> rfl

theorem submitWord_request {w : Word16} {i : Instr} (hd : decode w = .request i) (s : State) :
    submitWord w s = exec i s := by simp [submitWord, hd]

theorem submitWord_illegal {w : Word16} {why : Illegal} (hd : decode w = .illegal why) (s : State) :
    submitWord w s = .next (setErr s .illegalRequest) := by simp [submitWord, hd]

/-- Under a well-formed configuration every submitted word is answered with a next state. -/
theorem submitWord_total (w : Word16) {s : State} (hc : cfgWf s.cfg = true) :
    ∃ t, submitWord w s = .next t := by
  cases hd : decode w with
  | request i => exact ⟨_, (submitWord_request hd s).trans (exec_eq_submission i hc)⟩
  | illegal why => exact ⟨_, submitWord_illegal hd s⟩

/-- A word submitted to an idle block is rejected or accepted. -/
theorem submitWord_move {w : Word16} {rest : List Input} {s t : State} (hc : cfgWf s.cfg = true)
    (hb : s.busy = false) (h : submitWord w (takeInput rest s) = .next t) : Move s t := by
  cases hd : decode w with
  | illegal why =>
    rw [submitWord_illegal hd] at h
    cases h
    exact .reject rest _ hb
  | request i =>
    rw [submitWord_request hd] at h
    obtain rfl := exec_next h
    obtain ⟨hb', -⟩ | ⟨-, c, hs⟩ | ⟨-, hp, hs⟩ := submission_cases i (takeInput rest s)
    · simp [hb] at hb'
    · rw [hs]; exact .reject rest c hb
    · rw [hs]
      have hp := (passes_takeInput rest s i).mp hp
      exact .accept rest i hb hp (expand_ne_nil hc hp)

/-- Every step that answers a next state is a move, under a well-formed configuration. -/
theorem step_move {s t : State} (h : step s = .next t) : Move s t := by
  obtain ⟨hc, ⟨-, rfl⟩ | ⟨-, -, rfl⟩ | ⟨w, rest, hb, -, hw⟩ | ⟨text, rest, hb, hi, hp⟩ | ⟨rest, -, rfl⟩ |
    ⟨rest, -, rfl⟩ | ⟨k, rest, -, rfl⟩ | ⟨rest, hi, rfl⟩⟩ := step_cases h
  · exact .block s.inputs
  · exact .block s.inputs
  · exact submitWord_move hc hb hw
  · rw [printTurn_eq hi] at hp
    split at hp
    · cases hp; exact .endText rest
    · exact submitWord_move hc hb hp
  · exact .block rest
  · exact .reset rest
  · exact .resetInside rest k
  · exact .powerCycle rest hi

/-- A configuration that is not well-formed gives a run no meaning (10_state.md R32). -/
theorem step_refused {s : State} (hc : cfgWf s.cfg = false) : step s = .refused .illFormedConfig := by
  simp [step, hc]

theorem step_eq_agentTurn {s : State} (hc : cfgWf s.cfg = true) : step s = agentTurn s := by
  simp [step, hc]

/-- With nothing from the outside the block moves. -/
theorem step_block {s : State} (hc : cfgWf s.cfg = true) (hi : s.inputs = []) :
    step s = .next (blockStep s) := by
  simp [step_eq_agentTurn hc, agentTurn, hi]

/-- An idle block takes the word offered. -/
theorem step_submit {s : State} {w : Word16} {rest : List Input} (hc : cfgWf s.cfg = true)
    (ho : s.Offers w rest) : step s = submitWord w (takeInput rest s) := by
  simp [step_eq_agentTurn hc, agentTurn, ho.1, ho.2]

theorem step_printString {s : State} {text : List Byte} {rest : List Input} (hc : cfgWf s.cfg = true)
    (hb : s.busy = false) (hi : s.inputs = .printString text :: rest) :
    step s = printTurn text rest s := by
  simp [step_eq_agentTurn hc, agentTurn, hb, hi]

theorem step_powerCycle {s : State} {rest : List Input} (hc : cfgWf s.cfg = true)
    (hi : s.inputs = .powerCycle :: rest) : step s = .next (powerUp (takeInput rest s)) := by
  simp [step_eq_agentTurn hc, agentTurn, hi]

/-- Under a well-formed configuration no step fails (40_transport.md R107). -/
theorem step_total {s : State} (hc : cfgWf s.cfg = true) : ∃ t, step s = .next t := by
  rw [step_eq_agentTurn hc, agentTurn]
  split
  · exact ⟨_, rfl⟩
  · split
    · exact ⟨_, rfl⟩
    · exact submitWord_total _ hc
  · rename_i text rest hi
    split
    · exact ⟨_, rfl⟩
    · rw [printTurn_eq hi]
      split
      · exact ⟨_, rfl⟩
      · exact submitWord_total _ hc
  all_goals exact ⟨_, rfl⟩

end Sys2Proof.Machine
end

section
/-! SUPPORT. What a move leaves alone: the sequencer's fields under an event or a part of one, with no
premise on the pins, and TRACE and the configuration under a step. -/

namespace Sys2Proof.Machine

/-- The state with everything an event may write blotted out: the stages, the pins, the delay counter and
what the LCD captured. -/
def State.sequencer (s : State) : State :=
  { s with shift := .unknown, out := none, latch := true, sclk := false, mosi := none,
           busOwned := false, delayCounter := 0, captures := [] }

@[simp] theorem sequencer_pinLine (s : State) (l : PinLine) :
    (pinLine s l).sequencer = s.sequencer := by
  cases l with
  | latchHigh => cases hl : s.latch <;> simp [pinLine, hl, latchEdge, State.sequencer]
  | acquire => rfl
  | latchLow => rfl
  | mosi bit => rfl
  | clockHigh => rfl
  | clockLow => rfl
  | release => rfl

theorem sequencer_foldl_pinLine (ls : List PinLine) (s : State) :
    (ls.foldl pinLine s).sequencer = s.sequencer := by
  induction ls generalizing s with
  | nil => rfl
  | cons l ls ih => rw [List.foldl_cons, ih, sequencer_pinLine]

@[simp] theorem sequencer_performEvent (s : State) (e : Event) :
    (performEvent s e).sequencer = s.sequencer := by
  cases e with
  | commit v => exact sequencer_foldl_pinLine _ s
  | wait p => rfl

@[simp] theorem sequencer_partOfEvent (k : Nat) (s : State) :
    (partOfEvent k s).sequencer = s.sequencer := by
  unfold partOfEvent
  split
  · rfl
  · exact sequencer_foldl_pinLine _ s
  · rfl

@[simp] theorem performEvent_cfg (s : State) (e : Event) : (performEvent s e).cfg = s.cfg :=
  (congrArg State.cfg (sequencer_performEvent s e) :)

@[simp] theorem partOfEvent_cfg (k : Nat) (s : State) : (partOfEvent k s).cfg = s.cfg :=
  (congrArg State.cfg (sequencer_partOfEvent k s) :)

@[simp] theorem partOfEvent_trace (k : Nat) (s : State) : (partOfEvent k s).trace = s.trace :=
  (congrArg State.trace (sequencer_partOfEvent k s) :)

@[simp] theorem blockStep_cfg (s : State) : (blockStep s).cfg = s.cfg := by
  rcases hp : s.pending with _ | ⟨e, _ | ⟨e', rest⟩⟩
  · rw [blockStep_idle hp]
  · simp [blockStep_last hp]
  · simp [blockStep_more hp]

/-- A block reset writes neither the configuration nor TRACE (70_reset_and_hazards.md R240). -/
theorem blockReset_frame (s : State) :
    (blockReset s).cfg = s.cfg ∧ (blockReset s).trace = s.trace ∧ (blockReset s).initDone = false := by
  cases hl : s.latch with
  | true => simp [blockReset_idle hl]
  | false => simp [blockReset_mid hl]

theorem resetInside_frame (k : Nat) (s : State) :
    (resetInside k s).cfg = s.cfg ∧ (resetInside k s).trace = s.trace ∧
    (resetInside k s).initDone = false := by
  simpa [resetInside] using blockReset_frame (partOfEvent k s)

/-- The configuration is the hardware's, whoever moves (10_state.md R29). -/
theorem Move.cfg_eq {s t : State} (h : Move s t) : t.cfg = s.cfg := by
  cases h with
  | block rest => simp
  | endText rest => rfl
  | reject rest c hb => rfl
  | accept rest i hb hp hne => rfl
  | reset rest => exact (blockReset_frame _).1
  | resetInside rest k => exact (resetInside_frame k _).1
  | powerCycle rest hi => rfl

/-- The block step on the first of the pending events, or on none (10_state.md R38). -/
theorem blockStep_trace {s : State} (hp : s.PinsIdle) :
    (blockStep s).trace = s.trace ∨
    ∃ e rest, s.pending = e :: rest ∧ (blockStep s).trace = s.trace ++ [e] ∧
      (blockStep s).pending = rest := by
  rcases h : s.pending with _ | ⟨e, rest⟩
  · exact .inl (by rw [blockStep_idle h])
  · have hs := blockStep_says h hp
    exact .inr ⟨e, rest, rfl, hs.trace, hs.pending⟩

/-- A block step that takes INIT_DONE from 0 to 1 performs the last event of INIT (10_state.md R40). -/
theorem blockStep_raises_initDone {s : State} (hp : s.PinsIdle) (h0 : s.initDone = false)
    (h1 : (blockStep s).initDone = true) :
    s.curOp = some .init ∧ (∃ e, s.pending = [e] ∧ (blockStep s).trace = s.trace ++ [e]) ∧
    (blockStep s).curOp = none ∧ (blockStep s).busy = false := by
  rcases h : s.pending with _ | ⟨e, rest⟩
  · simp [blockStep_idle h, h0] at h1
  · have hs := blockStep_says h hp
    by_cases hr : rest = []
    · obtain ⟨hb, ho, hd⟩ := hs.last hr
      have hop : s.curOp = some .init := by simpa [hd, h0] using h1
      exact ⟨hop, ⟨e, by rw [hr], hs.trace⟩, ho, hb⟩
    · simp [(hs.more hr).2.2, h0] at h1

end Sys2Proof.Machine
end

section
/-! SUPPORT. The invariant under every move (10_state.md R28; 40_transport.md R104, R108;
60_exceptions.md R212 to R214). -/

open Sys2Proof.Certificates

namespace Sys2Proof.Machine

/-- The invariant does not read the inputs. -/
theorem takeInput_inv {s : State} (rest : List Input) (h : s.Inv) : (takeInput rest s).Inv :=
  ⟨h.busy, h.pins, h.stages, h.err, h.gate⟩

theorem toBits_le_four (c : ResultCode) : c.toBits.toNat ≤ 4 := by cases c <;> decide

theorem setErr_inv {s : State} (c : ResultCode) (h : s.Inv) : (setErr s c).Inv :=
  ⟨h.busy, h.pins, h.stages, toBits_le_four c, h.gate⟩

/-- A request whose checks pass holds its gate when it is accepted (60_exceptions.md R213, R214). -/
theorem accept_gateHolds {s : State} {i : Instr} (es : List Event) (hp : passes s i) :
    (accept (opOf i) es s).GateHolds := by
  cases i with
  | commit value => simp [State.GateHolds, opOf]
  | sendNibble rs p => simp [State.GateHolds, opOf]
  | sendByte rs b => simpa [State.GateHolds, opOf, passes] using hp
  | writeCommand b => simpa [State.GateHolds, opOf, passes] using hp
  | writeChar b => simpa [State.GateHolds, opOf, passes] using hp
  | setCursor col row => simpa [State.GateHolds, opOf] using hp.1
  | init => simpa [State.GateHolds, opOf, passes] using hp

theorem accept_inv {s : State} {i : Instr} {es : List Event} (h : s.Inv) (hp : passes s i)
    (hne : es ≠ []) : (accept (opOf i) es s).Inv where
  busy := by simp [State.BusyAgrees, hne]
  pins := h.pins
  stages := h.stages
  err := by simp [State.ErrProduced]
  gate := accept_gateHolds es hp

/-- The stages agree after a block step (40_transport.md R104). -/
theorem blockStep_stagesAgree {s : State} (hp : s.PinsIdle) (ha : s.StagesAgree) :
    (blockStep s).StagesAgree := by
  rcases h : s.pending with _ | ⟨e, _ | ⟨e', rest⟩⟩
  · rwa [blockStep_idle h]
  · rw [blockStep_last h]; exact (performEvent_pins e hp ha).2
  · rw [blockStep_more h]; exact (performEvent_pins e hp ha).2

theorem blockStep_inv {s : State} (h : s.Inv) : (blockStep s).Inv := by
  rcases hp : s.pending with _ | ⟨e, rest⟩
  · rwa [blockStep_idle hp]
  · have hs := blockStep_says hp h.pins
    have herr : (blockStep s).ErrProduced := by simpa [State.ErrProduced, hs.err] using h.err
    refine ⟨?_, hs.pins, blockStep_stagesAgree h.pins h.stages, herr, ?_⟩
    · by_cases hr : rest = []
      · obtain ⟨hb, ho, -⟩ := hs.last hr
        simp [State.BusyAgrees, hb, ho, hs.pending, hr]
      · obtain ⟨hb, ho, -⟩ := hs.more hr
        obtain ⟨h1, h2⟩ := h.busy
        refine ⟨by rw [hb, ho, h1], ?_⟩
        rw [hb, h2, hs.pending, hp]; simp [hr]
    · by_cases hr : rest = []
      · obtain ⟨-, ho, -⟩ := hs.last hr
        simp [State.GateHolds, ho]
      · obtain ⟨-, ho, hd⟩ := hs.more hr
        simpa [State.GateHolds, ho, hd] using h.gate

/-- A block reset writes all that the invariant speaks of but the stages, and loses both of those where
LATCH is low (70_reset_and_hazards.md R240, R242). -/
theorem blockReset_inv {s : State} (h : s.latch = true → s.StagesAgree) : (blockReset s).Inv := by
  cases hl : s.latch with
  | true =>
    rw [blockReset_idle hl]
    exact ⟨⟨rfl, rfl⟩, ⟨rfl, rfl, rfl⟩, h hl, by simp [State.ErrProduced], by simp [State.GateHolds]⟩
  | false =>
    rw [blockReset_mid hl]
    exact ⟨⟨rfl, rfl⟩, ⟨rfl, rfl, rfl⟩, rfl, by simp [State.ErrProduced], by simp [State.GateHolds]⟩

/-- Inside a commit, where LATCH is high the stages agree: nothing is shifted yet, or all of it is latched. -/
theorem commitPart_stagesAgree (v : Byte) {s : State} (k : Nat) (hp : s.PinsIdle) (ha : s.StagesAgree)
    (hl : (commitPart v k s).latch = true) : (commitPart v k s).StagesAgree := by
  by_cases hk : 2 ≤ k ∧ k ≤ 26
  · obtain ⟨sh, ck, mo, he⟩ := commitPart_inside v s k hk.1 hk.2
    simp [he] at hl
  · obtain he | he | he | he := commitPart_outside v hp k hk <;> rw [he]
    · exact ha
    · exact ha
    · simp [performCommit_eq v hp.2.1, State.StagesAgree]
    · simp [performCommit_eq v hp.2.1, State.StagesAgree]

theorem partOfEvent_stagesAgree {s : State} (k : Nat) (h : s.Inv) (hl : (partOfEvent k s).latch = true) :
    (partOfEvent k s).StagesAgree := by
  unfold partOfEvent at hl ⊢
  split at hl
  · exact h.stages
  · exact commitPart_stagesAgree _ k h.pins h.stages hl
  · exact h.stages

theorem powerUp_inv (s : State) : (powerUp s).Inv :=
  ⟨⟨rfl, rfl⟩, ⟨rfl, rfl, rfl⟩, rfl, Nat.zero_le _, by simp [State.GateHolds, powerUp, State.reset]⟩

theorem Move.inv {s t : State} (h : s.Inv) (m : Move s t) : t.Inv := by
  cases m with
  | block rest => exact blockStep_inv (takeInput_inv rest h)
  | endText rest => exact takeInput_inv rest h
  | reject rest c hb => exact setErr_inv c (takeInput_inv rest h)
  | accept rest i hb hp hne =>
    exact accept_inv (takeInput_inv rest h) ((passes_takeInput rest s i).mpr hp) hne
  | reset rest => exact blockReset_inv fun _ => h.stages
  | resetInside rest k => exact blockReset_inv (partOfEvent_stagesAgree k (takeInput_inv rest h))
  | powerCycle rest hi => exact powerUp_inv _

end Sys2Proof.Machine
end

section
/-! SUPPORT. A run of the block over several pending events, with nothing from the outside: the events of
`done` are performed and those of `rest` are left (10_state.md R38, R40, R41). -/

namespace Sys2Proof.Machine

/-- What a run that performs the events `done` and leaves `rest` does to all but the pins' momentary levels:
`BlockStepSays` over a list of events. -/
structure RunSays (s t : State) (done rest : List Event) : Prop where
  pending  : t.pending = rest
  trace    : t.trace = s.trace ++ done
  cfg      : t.cfg = s.cfg
  inputs   : t.inputs = s.inputs
  err      : t.err = s.err
  out      : t.out = outAfter s.out done
  captures : t.captures = s.captures ++ capturesFrom s.out done
  pins     : t.PinsIdle
  last     : done ≠ [] → rest = [] → t.busy = false ∧ t.curOp = none ∧
    t.initDone = (s.initDone || decide (s.curOp = some .init))
  more     : done = [] ∨ rest ≠ [] → t.busy = s.busy ∧ t.curOp = s.curOp ∧ t.initDone = s.initDone

theorem RunSays.refl {s : State} (hp : s.PinsIdle) : RunSays s s [] s.pending where
  pending := rfl
  trace := (List.append_nil _).symm
  cfg := rfl
  inputs := rfl
  err := rfl
  out := rfl
  captures := (List.append_nil _).symm
  pins := hp
  last h := absurd rfl h
  more _ := ⟨rfl, rfl, rfl⟩

/-- A block step before a run: only the last event of all completes the request. -/
theorem RunSays.cons {s u t : State} {e : Event} {es rest : List Event}
    (h : BlockStepSays s u e (es ++ rest)) (hr : RunSays u t es rest) : RunSays s t (e :: es) rest where
  pending := hr.pending
  trace := by simp [hr.trace, h.trace]
  cfg := hr.cfg.trans h.cfg
  inputs := hr.inputs.trans h.inputs
  err := hr.err.trans h.err
  out := by rw [hr.out, h.out, ← outAfter_append]; rfl
  captures := by
    rw [hr.captures, h.captures, h.out, List.append_assoc, ← capturesFrom_append]; rfl
  pins := hr.pins
  last _ hrest := by
    by_cases hes : es = []
    · obtain ⟨b1, o1, d1⟩ := h.last (by simp [hes, hrest])
      obtain ⟨b2, o2, d2⟩ := hr.more (.inl hes)
      exact ⟨b2.trans b1, o2.trans o1, d2.trans d1⟩
    · obtain ⟨-, o1, d1⟩ := h.more (by simp [hes])
      rw [← o1, ← d1]
      exact hr.last hes hrest
  more hne := by
    have hrest : rest ≠ [] := hne.resolve_left (by simp)
    obtain ⟨b1, o1, d1⟩ := h.more (by simp [hrest])
    obtain ⟨b2, o2, d2⟩ := hr.more (.inr hrest)
    exact ⟨b2.trans b1, o2.trans o1, d2.trans d1⟩

/-- As many steps as there are events in `done` perform them, with nothing from the outside. -/
theorem runSteps_performs {done rest : List Event} {s : State} (hc : cfgWf s.cfg = true)
    (hp : s.PinsIdle) (hi : s.inputs = []) (h : s.pending = done ++ rest) :
    ∃ t, runSteps done.length s = .next t ∧ RunSays s t done rest := by
  induction done generalizing s with
  | nil => exact ⟨s, rfl, by simpa [h] using RunSays.refl hp⟩
  | cons e es ih =>
    have hs : BlockStepSays s (blockStep s) e (es ++ rest) := blockStep_says h hp
    obtain ⟨t, ht, hr⟩ := ih (by rw [hs.cfg]; exact hc) hs.pins (hs.inputs.trans hi) hs.pending
    refine ⟨t, ?_, .cons hs hr⟩
    rw [List.length_cons, runSteps_succ _ (step_block hc hi), ht]

end Sys2Proof.Machine
end

section
/-! SUPPORT. Nothing is read back from the stages or from what the LCD saw (10_state.md R21, R23): every
operation of a step, seen through `State.blind`, depends on the state through `State.blind` only. -/

namespace Sys2Proof.Machine

/-- What `f` does apart from the stages and the captures does not depend on them. -/
def ReadsNothingBack (f : State → State) : Prop := ∀ s, (f s.blind).blind = (f s).blind

/-- An outcome as the sequencer may depend on it. -/
def blindNext (o : Host.Outcome State Fault Refusal) : Host.Outcome State Fault Refusal :=
  andThen o fun t => .next t.blind

theorem ReadsNothingBack.congr {f : State → State} (hf : ReadsNothingBack f) {s t : State}
    (h : s.blind = t.blind) : (f s).blind = (f t).blind := by
  rw [← hf s, h, hf t]

theorem ReadsNothingBack.comp {f g : State → State} (hg : ReadsNothingBack g)
    (hf : ReadsNothingBack f) : ReadsNothingBack fun s => g (f s) := fun s => hg.congr (hf s)

/-- A choice on something that is not blotted out. -/
theorem ReadsNothingBack.ite {p : State → Bool} {f g : State → State} (hp : ∀ s, p s.blind = p s)
    (hf : ReadsNothingBack f) (hg : ReadsNothingBack g) :
    ReadsNothingBack fun s => if p s then f s else g s := by
  intro s
  cases h : p s with
  | true => simpa [hp, h] using hf s
  | false => simpa [hp, h] using hg s

theorem readsNothingBack_pinLine (l : PinLine) : ReadsNothingBack (pinLine · l) := by
  intro s
  cases l with
  | latchHigh => cases hl : s.latch <;> simp [pinLine, hl, latchEdge, State.blind]
  | acquire => rfl
  | latchLow => rfl
  | mosi bit => rfl
  | clockHigh => rfl
  | clockLow => rfl
  | release => rfl

theorem readsNothingBack_foldl_pinLine (ls : List PinLine) : ReadsNothingBack (ls.foldl pinLine) := by
  induction ls with
  | nil => exact fun _ => rfl
  | cons l ls ih => exact ih.comp (readsNothingBack_pinLine l)

theorem readsNothingBack_performEvent (e : Event) : ReadsNothingBack (performEvent · e) := by
  cases e with
  | commit v => exact readsNothingBack_foldl_pinLine _
  | wait p => exact fun _ => rfl

theorem readsNothingBack_complete : ReadsNothingBack complete := fun _ => rfl

/-- The entry of a performed event in TRACE, with `rest` left to do (10_state.md R38). -/
def enterEvent (e : Event) (rest : List Event) (s : State) : State :=
  { s with trace := s.trace ++ [e], pending := rest }

theorem readsNothingBack_enterEvent (e : Event) (rest : List Event) :
    ReadsNothingBack (enterEvent e rest) := fun _ => rfl

/-- A performed event with its entry in TRACE. -/
theorem readsNothingBack_enter_performEvent (e : Event) (rest : List Event) :
    ReadsNothingBack fun s => enterEvent e rest (performEvent s e) :=
  (readsNothingBack_enterEvent e rest).comp (readsNothingBack_performEvent e)

theorem readsNothingBack_blockStep : ReadsNothingBack blockStep := by
  intro s
  rcases hp : s.pending with _ | ⟨e, _ | ⟨e', rest⟩⟩
  · rw [blockStep_idle hp, blockStep_idle (s := s.blind) hp]; rfl
  · rw [blockStep_last hp, blockStep_last (s := s.blind) hp]
    exact readsNothingBack_complete.comp (readsNothingBack_enter_performEvent e []) s
  · rw [blockStep_more hp, blockStep_more (s := s.blind) hp]
    exact readsNothingBack_enter_performEvent e (e' :: rest) s

theorem readsNothingBack_blockReset : ReadsNothingBack blockReset :=
  .ite (p := State.latch) (fun _ => rfl) (fun _ => rfl) (fun _ => rfl)

theorem readsNothingBack_partOfEvent (k : Nat) : ReadsNothingBack (partOfEvent k) := by
  intro s
  rcases hp : s.pending with _ | ⟨e, rest⟩
  · have hb : s.blind.pending = [] := hp
    simp only [partOfEvent, hp, hb]; rfl
  · have hb : s.blind.pending = e :: rest := hp
    cases e with
    | commit v =>
      simp only [partOfEvent, hp, hb]
      exact readsNothingBack_foldl_pinLine _ s
    | wait p => simp only [partOfEvent, hp, hb]; rfl

theorem readsNothingBack_resetInside (k : Nat) : ReadsNothingBack (resetInside k) :=
  readsNothingBack_blockReset.comp (readsNothingBack_partOfEvent k)

theorem rejection_blind (s : State) (i : Instr) : rejection s.blind i = rejection s i := by
  cases i <;> rfl

theorem readsNothingBack_submitRequest (op : Op) (es : List Event) (code : Option ResultCode) :
    ReadsNothingBack (submitRequest op es code) := by
  cases code with
  | none => exact .ite (p := State.busy) (fun _ => rfl) (fun _ => rfl) (fun _ => rfl)
  | some c => exact .ite (p := State.busy) (fun _ => rfl) (fun _ => rfl) (fun _ => rfl)

theorem readsNothingBack_submission (i : Instr) : ReadsNothingBack (submission i) := by
  intro s
  rw [submission, rejection_blind]
  exact readsNothingBack_submitRequest _ _ _ s

/-- An operation that reads nothing back, as the answer of a step. -/
theorem ReadsNothingBack.next {f : State → State} (hf : ReadsNothingBack f) (s : State) :
    blindNext (.next (f s.blind)) = blindNext (.next (f s)) :=
  congrArg Host.Outcome.next (hf s)

theorem blindNext_submitWord (w : Word16) {s : State} (hc : cfgWf s.cfg = true) :
    blindNext (submitWord w s.blind) = blindNext (submitWord w s) := by
  cases hd : decode w with
  | request i =>
    rw [submitWord_request hd, submitWord_request hd, exec_eq_submission i hc,
      exec_eq_submission (s := s.blind) i hc]
    exact (readsNothingBack_submission i).next s
  | illegal why =>
    rw [submitWord_illegal hd, submitWord_illegal hd]; rfl

theorem blindNext_printTurn {text : List Byte} {rest : List Input} {s : State}
    (hc : cfgWf s.cfg = true) (hi : s.inputs = .printString text :: rest) :
    blindNext (printTurn text rest s.blind) = blindNext (printTurn text rest s) := by
  rw [printTurn_eq hi, printTurn_eq (s := s.blind) hi, show reqWord s.blind = reqWord s from rfl]
  cases reqWord s with
  | none => rfl
  | some w => exact blindNext_submitWord w (s := takeInput _ s) hc

/-- The agent that moves, and what it does apart from the stages and the captures, do not depend on them. -/
theorem blindNext_agentTurn {s : State} (hc : cfgWf s.cfg = true) :
    blindNext (agentTurn s.blind) = blindNext (agentTurn s) := by
  have hbusy : s.blind.busy = s.busy := rfl
  rcases hi : s.inputs with _ | ⟨i, rest⟩
  · have hb : s.blind.inputs = [] := hi
    simp only [agentTurn, hi, hb]
    exact readsNothingBack_blockStep.next s
  · have hb : s.blind.inputs = i :: rest := hi
    cases i with
    | submit w =>
      simp only [agentTurn, hi, hb, hbusy]
      split
      · exact readsNothingBack_blockStep.next s
      · exact blindNext_submitWord w (s := takeInput rest s) hc
    | printString text =>
      simp only [agentTurn, hi, hb, hbusy]
      split
      · exact readsNothingBack_blockStep.next s
      · exact blindNext_printTurn hc hi
    | blockTurn =>
      simp only [agentTurn, hi, hb]
      exact readsNothingBack_blockStep.next (takeInput rest s)
    | reset =>
      simp only [agentTurn, hi, hb]
      exact readsNothingBack_blockReset.next (takeInput rest s)
    | resetInside k =>
      simp only [agentTurn, hi, hb]
      exact (readsNothingBack_resetInside k).next (takeInput rest s)
    | powerCycle => simp only [agentTurn, hi, hb]; rfl

end Sys2Proof.Machine
end

section
/-! SUPPORT. The checks of a configuration and the count of a wait (10_state.md R31, R32, R34). -/

namespace Sys2Proof.Machine

/-- The row table of a build (10_state.md R35): the two geometries. -/
theorem rowOffsetTable_eq_some {n : Nat} {t : List Byte} :
    rowOffsetTable n = some t ↔
      (n = 2 ∧ t = [0x00, 0x40]) ∨ (n = 4 ∧ t = [0x00, 0x40, 0x14, 0x54]) := by
  unfold rowOffsetTable
  split
  · simp [eq_comm]
  · simp [eq_comm]
  · rename_i h2 h4
    constructor
    · rintro ⟨⟩
    · rintro (⟨h, -⟩ | ⟨h, -⟩)
      · exact absurd h h2
      · exact absurd h h4

/-- A property of all nine delay parameters, one by one. -/
theorem forall_delay {P : Delay → Prop} :
    (∀ p, P p) ↔ P .powerOn ∧ P .reset1 ∧ P .reset2 ∧ P .reset3 ∧ P .reset4 ∧ P .enHigh ∧
      P .nibble ∧ P .byte ∧ P .long := by
  refine ⟨fun h => ⟨h _, h _, h _, h _, h _, h _, h _, h _, h _⟩, ?_⟩
  rintro ⟨_, _, _, _, _, _, _, _, _⟩ p
  cases p <;> assumption

/-- The check of a configuration as its conjuncts (10_state.md R32). -/
theorem cfgWf_iff {c : Cfg} :
    cfgWf c = true ↔ rowOffsetTable c.rows = some c.rowOffset ∧ 0 < c.fSclk ∧ 0 < c.fClk ∧
      ∀ p, delayOk c p = true := by
  simp [cfgWf, forall_delay, and_assoc]

/-- A delay is legal at or above its floor, or above 0 where it has none (10_state.md R31, R32). -/
theorem delayOk_iff {c : Cfg} {p : Delay} :
    delayOk c p = true ↔ (delayFloor p).elim (0 < delayOf c p) (· ≤ delayOf c p) := by
  unfold delayOk
  cases delayFloor p with
  | none => exact decide_eq_true_iff
  | some f => exact decide_eq_true_iff

/-- A legal delay is positive (10_state.md R31). -/
theorem delayOf_pos {c : Cfg} {p : Delay} (h : delayOk c p = true) : 0 < delayOf c p := by
  have hfloor : ∀ f, delayFloor p = some f → 0 < f := by
    intro f hf
    cases p <;> cases hf <;> norm_num
  have hok := delayOk_iff.mp h
  cases hf : delayFloor p with
  | none => simpa [hf] using hok
  | some f => exact (hfloor f hf).trans_le (by simpa [hf] using hok)

/-- The loaded count, as a rational: the delay in clock cycles, rounded up (10_state.md R34). -/
theorem waitCycles_cast {c : Cfg} (p : Delay) (h : 0 ≤ delayOf c p * c.fClk / 1000000000) :
    (waitCycles c p : Rat) = (delayOf c p * c.fClk / 1000000000).ceil := by
  have hn : 0 ≤ (delayOf c p * c.fClk / 1000000000).ceil := by
    exact_mod_cast h.trans Rat.le_ceil
  rw [waitCycles, ← Int.cast_natCast, Int.toNat_of_nonneg hn]

end Sys2Proof.Machine
end

section
/-! SUPPORT. The status word (10_state.md R27). -/

namespace Sys2Proof.Machine

/-- The four fields of the status word, as a number. -/
theorem statusBits_toNat (busy initDone : Bool) (err : BitVec 3) :
    (0#3 ++ err ++ BitVec.ofBool initDone ++ BitVec.ofBool busy : Byte).toNat =
      (if busy then 1 else 0) + (if initDone then 2 else 0) + 4 * err.toNat := by
  revert busy initDone err; decide

/-- Bit 0 of the status word is BUSY. -/
theorem getLsbD_zero_statusWord (s : State) : (statusWord s).getLsbD 0 = s.busy := by
  rw [statusWord, BitVec.getLsbD_append]
  simp

end Sys2Proof.Machine
end

section
/-! SUPPORT. The statements of 10_state.md, settled. -/

open Sys2Proof Sys2Proof.Machine Sys2Proof.Certificates

namespace Sys2Proof.Proofs

/-- Settles O51, by the invariant of every move. -/
theorem stepKeepsTheInvariant : Obligations.StepKeepsTheInvariant := by
  intro s t h hstep
  exact (step_move hstep).inv h

/-- Settles O18: a submission is held, rejected or accepted. -/
theorem submissionFrame : Obligations.SubmissionFrame := by
  intro i s t h
  obtain rfl := exec_next h
  obtain ⟨-, hs⟩ | ⟨-, c, hs⟩ | ⟨-, -, hs⟩ := submission_cases i s
  · rw [hs]
  · rw [hs]; rfl
  · rw [hs]; rfl

/-- Settles O19, by the run over the pending events, cut at each of them. -/
theorem acceptedRequestCompletes : Obligations.AcceptedRequestCompletes := by
  intro s hc hinv hb hi
  refine ⟨fun k hk => ?_, ?_⟩
  · obtain ⟨t, ht, hr⟩ := runSteps_performs (done := s.pending.take k) hc hinv.pins hi
      (List.take_append_drop k s.pending).symm
    rw [List.length_take_of_le hk.le] at ht
    have hmore : s.pending.drop k ≠ [] := by simpa using hk
    exact ⟨t, ht, (hr.more (.inr hmore)).1.trans hb, hr.trace⟩
  · have hne : s.pending ≠ [] := by
      have := hinv.busy.2
      intro h
      simp [hb, h] at this
    obtain ⟨t, ht, hr⟩ := runSteps_performs hc hinv.pins hi (List.append_nil s.pending).symm
    obtain ⟨hbusy, hop, hdone⟩ := hr.last hne rfl
    exact ⟨t, ht, ⟨hbusy, hr.pending, hr.inputs.trans hi⟩, hop, hr.trace, hr.out, hr.captures, hdone,
      hr.err, hr.cfg, hr.pins⟩

/-- Settles O20: the word decodes to its request, the request is accepted, and its events run. -/
theorem offeredRequestRunsToRest : Obligations.OfferedRequestRunsToRest := by
  intro s i hc hinv hwf hp ho
  have hp' : passes (takeInput [] s) i := (passes_takeInput [] s i).mpr hp
  have hstep : step s = .next (accept (opOf i) (expand s.cfg i) (takeInput [] s)) := by
    rw [step_submit hc ho, submitWord_request (decode_encode hwf),
      exec_eq_submission (s := takeInput [] s) i hc, submission_accepts (s := takeInput [] s) ho.1 hp']
    rfl
  obtain ⟨t, ht, hr⟩ := runSteps_performs (done := expand s.cfg i) (rest := [])
    (s := accept (opOf i) (expand s.cfg i) (takeInput [] s)) hc hinv.pins rfl (by simp)
  obtain ⟨hbusy, -, hdone⟩ := hr.last (expand_ne_nil hc hp) rfl
  refine ⟨t, ?_, ⟨hbusy, hr.pending, hr.inputs⟩, hr.err, hr.trace, hr.out, hr.captures, ?_⟩
  · rw [Nat.add_comm, runSteps_succ _ hstep, ht]
  · simpa [opOf_eq_init] using hdone

/-- Settles O21, by what the block step says of its last event and of an earlier one. -/
theorem completionWithTheLastEvent : Obligations.CompletionWithTheLastEvent := by
  intro s e rest hp h
  have hs := blockStep_says h hp
  refine ⟨fun hr => ?_, hs.more⟩
  obtain ⟨hb, ho, hd⟩ := hs.last hr
  exact ⟨hb, ho, fun hi => by simp [hd, hi], fun hi => by simp [hd, hi]⟩

/-- Settles O22, by the move that the step is. -/
theorem traceGrowsInPendingOrder : Obligations.TraceGrowsInPendingOrder := by
  intro s t hp hstep hpc
  cases step_move hstep with
  | block rest => exact blockStep_trace (s := takeInput rest s) hp
  | endText rest => exact .inl rfl
  | reject rest c hb => exact .inl rfl
  | accept rest i hb hi hne => exact .inl rfl
  | reset rest => exact .inl (blockReset_frame _).2.1
  | resetInside rest k => exact .inl (resetInside_frame k _).2.1
  | powerCycle rest hi => exact absurd hi (hpc rest)

/-- Settles O29: the count is the delay in cycles rounded up, and a wait counts it down. -/
theorem delayCounterCoversTheDelay : Obligations.DelayCounterCoversTheDelay := by
  intro c p hc
  obtain ⟨-, -, hclk, hok⟩ := cfgWf_iff.mp hc
  have hd : 0 < delayOf c p := delayOf_pos (hok p)
  rw [waitCycles_cast p (by positivity)]
  refine ⟨?_, ?_, ?_⟩
  · have h := Rat.le_ceil (x := delayOf c p * c.fClk / 1000000000)
    rw [le_div_iff₀ hclk]
    linarith [(div_le_iff₀ (by norm_num)).mp h]
  · have h := Rat.ceil_lt (x := delayOf c p * c.fClk / 1000000000)
    have hx : delayOf c p * c.fClk / 1000000000 * 1000000000 = delayOf c p * c.fClk :=
      div_mul_cancel₀ _ (by norm_num)
    rw [div_lt_iff₀ hclk, add_mul, div_mul_cancel₀ _ hclk.ne']
    linarith
  · rintro s k rfl
    rfl

/-- Settles O48: the check as its conjuncts, and a step that is refused or an agent's turn by it. -/
theorem runsHaveMeaningExactlyWhenWellFormed :
    Obligations.RunsHaveMeaningExactlyWhenWellFormed := by
  refine ⟨fun c => ?_, fun s => step_refused, fun s => step_total⟩
  rw [cfgWf_iff, rowOffsetTable_eq_some]
  simp only [forall_delay, delayOk_iff, delayFloor, Option.elim, delayOf]

/-- Settles O49, by the move that the step is. -/
theorem configurationIsNeverWritten : Obligations.ConfigurationIsNeverWritten := by
  intro s t hstep
  exact (step_move hstep).cfg_eq

/-- Settles O52: both steps, seen without the stages and the captures, are that of the blotted state. -/
theorem sequencerNeverReadsTheRegister : Obligations.SequencerNeverReadsTheRegister := by
  intro s1 s2 t1 hblind h1
  have hc1 : cfgWf s1.cfg = true := (step_cases h1).1
  have hc2 : cfgWf s2.cfg = true := by
    have hcfg : s1.cfg = s2.cfg := (congrArg State.cfg hblind :)
    rwa [← hcfg]
  obtain ⟨t2, h2⟩ := step_total hc2
  have heq : blindNext (step s1) = blindNext (step s2) := by
    rw [step_eq_agentTurn hc1, step_eq_agentTurn hc2, ← blindNext_agentTurn hc1, hblind,
      blindNext_agentTurn hc2]
  rw [h1, h2] at heq
  exact ⟨t2, h2, Host.Outcome.next.inj heq⟩

/-- Settles O53: only the block step of the last event raises INIT_DONE, and only for INIT. -/
theorem initDoneRisesOnlyWhenInitCompletes : Obligations.InitDoneRisesOnlyWhenInitCompletes := by
  intro s t hstep hp h0 h1
  cases step_move hstep with
  | block rest => exact blockStep_raises_initDone (s := takeInput rest s) hp h0 h1
  | endText rest => simp [h0] at h1
  | reject rest c hb => simp [h0] at h1
  | accept rest i hb hi hne => simp [h0] at h1
  | reset rest => simp [(blockReset_frame _).2.2] at h1
  | resetInside rest k => simp [(resetInside_frame k _).2.2] at h1
  | powerCycle rest hi => cases h1

/-- Settles O6: the port's word decodes to the request, and a PRINT_STRING character's word is WRITE_CHAR's. -/
theorem stepRunsTheDecodedRequest : Obligations.StepRunsTheDecodedRequest := by
  refine ⟨fun s w rest i hc ho hd => ?_, fun s c more rest hc hb hi hne => ?_⟩
  · rw [step_submit hc ho, submitWord_request hd]; rfl
  · have hw : reqWord s = some (encode (.writeChar c)) := by
      simp only [reqWord, hi, if_neg hne, charWord_eq_encode]
    refine ⟨hw, ?_⟩
    rw [step_printString hc hb hi, printTurn_eq hi, hw]
    exact submitWord_request (decode_encode rfl) _

/-- Settles O24, with the count at 0. -/
theorem waitEventHoldsOutputs : Obligations.WaitEventHoldsOutputs := by
  intro s p rest h
  refine ⟨0, ?_⟩
  rcases rest with _ | ⟨e, rest⟩
  · have hd : decide (([] : List Event) = [] ∧ s.curOp = some .init) =
        decide (s.curOp = some .init) := by simp
    rw [blockStep_last h, hd]; rfl
  · simp [blockStep_more h, performEvent, performWait, loadDelay]

/-- Settles O47: a power cycle is one step, to the state of `State.reset` under the same build. -/
theorem powerUpState : Obligations.PowerUpState := by
  refine ⟨?_, fun s rest hc hi => ⟨_, step_powerCycle hc hi, rfl, rfl⟩⟩
  rintro t (rfl | ⟨s, rest, hi, hstep⟩)
  · simp [State.reset]
  · rw [step_powerCycle (step_cases hstep).1 hi] at hstep
    cases hstep
    simp [powerUp, State.reset]

/-- Settles O50: the state at reset is that of a power-up. -/
theorem resetMeetsTheInvariant : Obligations.ResetMeetsTheInvariant := powerUp_inv State.reset

/-- Settles O54, by the number its four fields make and by its bit 0. -/
theorem statusWordLayout : Obligations.StatusWordLayout := by
  intro s
  exact ⟨statusBits_toNat s.busy s.initDone s.err, by rw [getLsbD_zero_statusWord]; rfl⟩

end Sys2Proof.Proofs
end

section
/-! SUPPORT. A commit line by line, and the three lines of each of its bits (20_memory.md R52;
40_transport.md R101). -/

namespace Sys2Proof.Machine

/-- One more line of a commit: the line at place `k`, after the first `k`. -/
theorem commitPart_succ {v : Byte} {k : Nat} {l : PinLine} (h : (commitLines v)[k]? = some l)
    (s : State) : commitPart v (k + 1) s = pinLine (commitPart v k s) l := by
  simp [commitPart, List.take_add_one, h]

/-- The places of the lines of the `j`-th bit sent: bit `7 - j`, most significant first. -/
theorem commitLines_bit (v : Byte) {j : Nat} (hj : j < 8) :
    (commitLines v)[2 + 3 * j]? = some (.mosi (v.getLsbD (7 - j))) ∧
    (commitLines v)[2 + 3 * j + 1]? = some .clockHigh ∧
    (commitLines v)[2 + 3 * j + 2]? = some .clockLow := by
  interval_cases j <;> exact ⟨rfl, rfl, rfl⟩

/-- The state before the `j`-th bit is sent, and after the last. -/
def beforeBit (v : Byte) (j : Nat) (s : State) : State := commitPart v (2 + 3 * j) s

section
variable (v : Byte) {j : Nat} (hj : j < 8) (s : State)
include hj

theorem commitPart_setUp :
    commitPart v (2 + 3 * j + 1) s = pinLine (beforeBit v j s) (.mosi (v.getLsbD (7 - j))) :=
  commitPart_succ (commitLines_bit v hj).1 s

theorem commitPart_clocked :
    commitPart v (2 + 3 * j + 2) s = pinLine (commitPart v (2 + 3 * j + 1) s) .clockHigh :=
  commitPart_succ (commitLines_bit v hj).2.1 s

theorem beforeBit_succ :
    beforeBit v (j + 1) s = pinLine (commitPart v (2 + 3 * j + 2) s) .clockLow :=
  commitPart_succ (commitLines_bit v hj).2.2 s

end

/-- SCLK is low before every bit: the bus is taken with SCLK low, and each bit's last line lowers it. -/
theorem sclk_beforeBit (v : Byte) {s : State} (hs : s.sclk = false) {j : Nat} (hj : j ≤ 8) :
    (beforeBit v j s).sclk = false := by
  cases j with
  | zero => exact hs
  | succ j => rw [beforeBit_succ v hj]; rfl

end Sys2Proof.Machine
end

section
/-! SUPPORT. When a commit from a known output captures nothing (43_lcd_capture.md R191; 20_memory.md R58). -/

namespace Sys2Proof.Machine

/-- Between known outputs only a falling Enable captures. -/
theorem captureAt_eq_none {u v : Byte} :
    captureAt (some u) (some v) = none ↔ (enableOf u = false ∨ enableOf v = true) := by
  cases hu : enableOf u with
  | false => simp [captureAt, hu]
  | true =>
    cases hv : enableOf v with
    | true => simp [captureAt, hv]
    | false => by_cases hd : sameData u v <;> simp [captureAt, hu, hv, hd]

/-- The value already held does not lower Enable. -/
theorem captureAt_self (u : Byte) : captureAt (some u) (some u) = none :=
  captureAt_eq_none.mpr (Bool.eq_false_or_eq_true _).symm

/-- A commit that captures nothing leaves the captures as they were. -/
theorem performCommit_captures {v : Byte} {s : State} (hs : s.PinsIdle)
    (h : captureAt s.out (some v) = none) : (performCommit v s).captures = s.captures := by
  simp [performCommit_eq v hs.2.1, h]

end Sys2Proof.Machine
end

section
/-! SUPPORT. The statements of 20_memory.md, settled. -/

open Sys2Proof Sys2Proof.Machine Sys2Proof.Certificates

namespace Sys2Proof.Proofs

/-- Settles O38: only a falling Enable captures, and the value held does not make one. -/
theorem commitWithoutFallingEnableIsInvisible :
    Obligations.CommitWithoutFallingEnableIsInvisible := by
  intro s u v hs hu
  refine ⟨fun h => performCommit_captures hs ?_, ?_⟩
  · rw [hu]
    exact captureAt_eq_none.mpr h
  · rintro rfl
    refine ⟨?_, performCommit_captures hs ?_⟩
    · rw [performCommit_eq u hs.2.1, hu]
    · rw [hu]
      exact captureAt_self u

/-- Settles O27, by the three lines of the bit. -/
theorem serialOrderIsMsbFirst : Obligations.SerialOrderIsMsbFirst := by
  rintro v s j ⟨-, hclock, -⟩ hj
  have hup := commitPart_setUp v hj s
  have hhigh := commitPart_clocked v hj s
  have hlow : (beforeBit v (j + 1) s).sclk = false := sclk_beforeBit v hclock hj
  refine ⟨⟨?_, ?_⟩, ⟨?_, ?_⟩, hlow⟩
  · rw [hup]
    exact sclk_beforeBit v hclock hj.le
  · rw [hup]; rfl
  · rw [hhigh]; rfl
  · rw [hhigh, hup]; rfl

end Sys2Proof.Proofs
end

section
/-! SUPPORT. The fields of a word as arithmetic, when a word is illegal, and the word from its request
(30_encoding.md R70, R72, R75, R76). -/

open Sys2Proof.Laws.WordFields

namespace Sys2Proof

section
variable (w : Word16)

theorem opField_toNat : (opField w).toNat = w.toNat / 4096 := by
  have := w.isLt
  simp only [opField, BitVec.extractLsb'_toNat, Nat.shiftRight_eq_div_pow]
  omega

theorem rowField_toNat : (rowField w).toNat = w.toNat / 512 % 8 := by
  simp [rowField, Nat.shiftRight_eq_div_pow]

theorem rsField_eq_true : rsField w = true ↔ w.toNat / 256 % 2 ≠ 0 := by
  simp [rsField, BitVec.getLsbD, Nat.testBit_eq_decide_div_mod_eq]

theorem dlField_toNat : (dlField w).toNat = w.toNat % 16 := by simp [dlField]

theorem dataField_toNat : (dataField w).toNat = w.toNat % 256 := by simp [dataField]

end

/-- The fields a word has are those it is made of. -/
theorem requestWord_of_hasFields {w : Word16} {op : BitVec 4} {row : BitVec 3} {rs : Bool} {data : Byte}
    (h : HasFields w op.toNat row rs data) : requestWord op row rs data = w := by
  obtain ⟨hop, rfl, rfl, rfl⟩ := h
  rw [← BitVec.eq_of_toNat_eq hop, requestWord_fields]

/-- A check of a field passes in every word that is a request. -/
theorem check_eq_request {c : Prop} [Decidable c] {why : Illegal} {d : Decoded} {i : Instr} :
    (if c then .illegal why else d) = Decoded.request i ↔ ¬c ∧ d = .request i := by
  by_cases h : c <;> simp [h]

/-- A word is illegal when a check of a field fails, or what follows it does. -/
theorem check_illegal {c : Prop} [Decidable c] {why : Illegal} {d : Decoded} :
    (∃ y, (if c then .illegal why else d) = Decoded.illegal y) ↔ c ∨ ∃ y, d = .illegal y := by
  by_cases h : c <;> simp [h]

/-- A word that decodes to a request has the fields of that request's word, so it is that word
(30_encoding.md R76). -/
theorem encode_of_decode {w : Word16} {i : Instr} (h : decode w = .request i) :
    i.wf = true ∧ encode i = w := by
  unfold decode at h
  split at h
  case h_8 => cases h
  all_goals simp only [check_eq_request, Decoded.request.injEq, not_not, Bool.not_eq_true, ne_eq] at h
  case h_1 hop | h_4 hop | h_5 hop =>
    obtain ⟨hrow, hrs, rfl⟩ := h
    exact ⟨rfl, requestWord_of_hasFields ⟨hop, hrow, hrs, rfl⟩⟩
  case h_2 hop =>
    obtain ⟨hrow, hdl, rfl⟩ := h
    have hwf : dataField w &&& 0x0F#8 = 0#8 := (low_half_zero _).mpr ((dlField_eq w).symm.trans hdl)
    exact ⟨beq_iff_eq.mpr hwf, requestWord_of_hasFields ⟨hop, hrow, rfl, rfl⟩⟩
  case h_3 hop =>
    obtain ⟨hrow, rfl⟩ := h
    exact ⟨rfl, requestWord_of_hasFields ⟨hop, hrow, rfl, rfl⟩⟩
  case h_6 hop =>
    obtain ⟨hrs, rfl⟩ := h
    exact ⟨rfl, requestWord_of_hasFields ⟨hop, rfl, hrs, rfl⟩⟩
  case h_7 hop =>
    obtain ⟨hrow, hrs, hdata, rfl⟩ := h
    exact ⟨rfl, requestWord_of_hasFields ⟨hop, hrow, hrs, hdata⟩⟩

/-- The two cases of 30_encoding.md R75, on the fields of the word. -/
theorem decode_illegal_iff (w : Word16) :
    (∃ why, decode w = .illegal why) ↔
      ((opField w).toNat = 0 ∨ 8 ≤ (opField w).toNat
        ∨ ((opField w).toNat ≠ 6 ∧ rowField w ≠ 0)
        ∨ ((opField w).toNat ≠ 2 ∧ (opField w).toNat ≠ 3 ∧ rsField w = true)
        ∨ ((opField w).toNat = 2 ∧ dlField w ≠ 0)
        ∨ ((opField w).toNat = 7 ∧ dataField w ≠ 0)) := by
  unfold decode
  split
  case h_8 =>
    have hop : (opField w).toNat = 0 ∨ 8 ≤ (opField w).toNat := by grind
    simp [← or_assoc, hop]
  all_goals
    rename_i hop
    simp only [check_illegal]
    simp [hop]

end Sys2Proof
end

section
/-! SUPPORT. The operands of a source line, number by number (30_encoding.md R83). -/

namespace Sys2Proof.Machine

/-- A register select is taken when it is 0 or 1. -/
theorem operandBit_bind {α : Type} (n : Nat) (f : Bool → Option α) :
    operandBit n >>= f = if n < 2 then f (n == 1) else none := by
  rcases n with _ | _ | n
  · rfl
  · rfl
  · simp [operandBit]

/-- An operand is taken when it fits its field. -/
theorem operandBits_bind {α : Type} (w n : Nat) (f : BitVec w → Option α) :
    operandBits w n >>= f = if n < 2 ^ w then f (BitVec.ofNat w n) else none := by
  unfold operandBits
  split <;> rfl

theorem operandBits_map {α : Type} (w n : Nat) (f : BitVec w → α) :
    (operandBits w n).map f = if n < 2 ^ w then some (f (BitVec.ofNat w n)) else none := by
  unfold operandBits
  split <;> rfl

/-- A number that fits a byte has an encodable nibble when its low half is 0 (30_encoding.md R73). -/
theorem wf_sendNibble_ofNat (rs : Bool) (p : Nat) :
    (Instr.sendNibble rs (BitVec.ofNat 8 p)).wf = true ↔ p % 16 = 0 := by
  rw [Instr.wf, beq_iff_eq, low_half_zero, BitVec.toNat_eq]
  simp

end Sys2Proof.Machine
end

section
/-! SUPPORT. How many commits and events an expansion has (30_encoding.md R79). -/

open Sys2Proof.Certificates

namespace Sys2Proof.Machine

/-- The list has `c` commits among its `n` events. -/
def HasSize (es : List Event) (c n : Nat) : Prop := (commitsOf es).length = c ∧ es.length = n

theorem HasSize.append {a b : List Event} {c d m n : Nat} (ha : HasSize a c m) (hb : HasSize b d n) :
    HasSize (a ++ b) (c + d) (m + n) := by
  obtain ⟨rfl, rfl⟩ := ha
  obtain ⟨rfl, rfl⟩ := hb
  simp [HasSize, commitsOf]

theorem hasSize_wait (p : Delay) : HasSize [.wait p] 0 1 := ⟨rfl, rfl⟩

theorem hasSize_nibbleEvents (rs : Bool) (p : Byte) : HasSize (nibbleEvents rs p) 3 5 := ⟨rfl, rfl⟩

theorem hasSize_byteEvents (rs : Bool) (b : Byte) : HasSize (byteEvents rs b) 6 11 :=
  ((hasSize_nibbleEvents ..).append (hasSize_nibbleEvents ..)).append (hasSize_wait _)

/-- The long delay is one event more. -/
theorem hasSize_commandEvents (b : Byte) :
    HasSize (commandEvents b) 6 (if isLong b then 12 else 11) := by
  unfold commandEvents
  split
  · exact (hasSize_byteEvents ..).append (hasSize_wait _)
  · exact (hasSize_byteEvents ..).append ⟨rfl, rfl⟩

/-- INIT: twelve nibbles, one wait before them and one after each raw one, four settles, the long delay. -/
theorem hasSize_initEvents : HasSize initEvents 36 70 := by
  have raw (p : Byte) : HasSize (nibbleEvents false p) 3 5 := hasSize_nibbleEvents false p
  exact (hasSize_wait .powerOn).append (raw 0x30) |>.append (hasSize_wait .reset1)
    |>.append (raw 0x30) |>.append (hasSize_wait .reset2)
    |>.append (raw 0x30) |>.append (hasSize_wait .reset3)
    |>.append (raw 0x20) |>.append (hasSize_wait .reset4)
    |>.append (hasSize_commandEvents 0x28) |>.append (hasSize_commandEvents 0x0C)
    |>.append (hasSize_commandEvents 0x06) |>.append (hasSize_commandEvents 0x01)

theorem isLong_iff {b : Byte} : isLong b = true ↔ b = 0x01 ∨ b = 0x02 := by simp [isLong]

end Sys2Proof.Machine
end

section
/-! SUPPORT. The statements of 30_encoding.md, settled. -/

open Sys2Proof Sys2Proof.Machine Sys2Proof.Certificates

namespace Sys2Proof.Proofs

/-- Settles O1, by the fields of the word, request by request. -/
theorem decodeOfEncodeIsTheRequest : Obligations.DecodeOfEncodeIsTheRequest := by
  intro i hwf
  exact decode_encode hwf

/-- Settles O2: a legal word's fields are those of the request it decodes to. -/
theorem legalWordIsTheEncodingOfItsRequest : Obligations.LegalWordIsTheEncodingOfItsRequest := by
  intro w i h
  exact encode_of_decode h

/-- Settles O3, by the cases of the fields, each as arithmetic, and by what a step does with the word. -/
theorem illegalWordsAreRejected : Obligations.IllegalWordsAreRejected := by
  refine ⟨fun w => ?_, fun s w rest why hc ho hd => ?_⟩
  · simp [decode_illegal_iff, rsField_eq_true, BitVec.toNat_eq, opField_toNat, rowField_toNat,
      dlField_toNat, dataField_toNat]
  · rw [step_submit hc ho, submitWord_illegal hd]; rfl

/-- Settles O5, by each operand's field. -/
theorem assemblerRefusesWhatDoesNotFit : Obligations.AssemblerRefusesWhatDoesNotFit := by
  refine ⟨fun v => operandBits_map 8 v Instr.commit, fun r p => ?_, fun r b => ?_,
    fun b => operandBits_map 8 b Instr.writeCommand, fun b => operandBits_map 8 b Instr.writeChar,
    fun c r => ?_, rfl, fun n => operandBits_map 16 n fun w => [w]⟩
  · simp only [assembleRequest, operandBit_bind, operandBits_bind, wf_sendNibble_ofNat, ← ite_and]
    simp
  · simp only [assembleRequest, operandBit_bind, operandBits_bind, ← ite_and]
    rfl
  · simp only [assembleRequest, operandBits_bind, ← ite_and]
    rfl

/-- Settles O4: each line read, and each word decoded. -/
theorem encodingExamples : Obligations.EncodingExamples := by
  unfold Obligations.EncodingExamples
  decide

/-- Settles O36, by the sizes of the helper expansions; the cursor command is never in the long class. -/
theorem expansionLengths : Obligations.ExpansionLengths := by
  refine ⟨fun v => ⟨rfl, rfl⟩, hasSize_nibbleEvents, hasSize_byteEvents, fun b => ?_,
    hasSize_byteEvents true, fun col offset => ?_, hasSize_initEvents⟩
  · have h := hasSize_commandEvents b
    simp only [isLong_iff] at h
    exact h
  · have h := hasSize_commandEvents (cursorCommand col offset)
    simp only [isLong_cursorCommand] at h
    exact h

end Sys2Proof.Proofs
end

section
/-! SUPPORT. A commit by the stages and the levels it moves, and the packets of an encodable nibble
(40_transport.md R101, R102, R104, R108; 41_nibble_framer.md R120). -/

open Sys2Proof.Certificates

namespace Sys2Proof.Machine

/-- The shift rule on known values (40_transport.md R102). -/
theorem shiftIn_ofByte (b : Byte) (m : Bool) :
    (Stage.ofByte b).shiftIn (some m) = Stage.ofByte ((b <<< 1) ||| (BitVec.ofBool m).setWidth 8) := by
  simp [Stage.ofByte, Stage.shiftIn]

/-- The eight bits of a transfer, clocked in, are the byte. -/
theorem foldl_shiftIn_serialBits (g : Stage) (v : Byte) :
    (serialBits v).foldl (fun st m => st.shiftIn (some m)) g = Stage.ofByte v :=
  shiftIn_eight g ..

/-! ## Which line moves what -/

theorem shift_pinLine {l : PinLine} (hl : l ≠ .clockHigh) (s : State) :
    (pinLine s l).shift = s.shift := by
  cases l with
  | clockHigh => exact absurd rfl hl
  | latchHigh => cases h : s.latch <;> simp [pinLine, h, latchEdge]
  | _ => rfl

theorem out_pinLine {l : PinLine} (hl : l ≠ .latchHigh) (s : State) : (pinLine s l).out = s.out := by
  cases l with
  | latchHigh => exact absurd rfl hl
  | _ => rfl

/-- Only a rise of LATCH is an edge. -/
theorem out_latchHigh (s : State) :
    (pinLine s .latchHigh).out = if s.latch then s.out else s.shift.toByte? := by
  cases h : s.latch <;> simp [pinLine, h, latchEdge]

theorem busOwned_latchHigh (s : State) : (pinLine s .latchHigh).busOwned = s.busOwned := by
  cases h : s.latch <;> simp [pinLine, h, latchEdge]

/-! ## The last two lines of a commit -/

theorem commitPart_latched (v : Byte) (s : State) :
    commitPart v 27 s = pinLine (commitPart v 26 s) .latchHigh :=
  commitPart_succ rfl s

theorem commitPart_whole (v : Byte) (s : State) : commitPart v 28 s = performCommit v s := rfl

theorem performCommit_released (v : Byte) (s : State) :
    performCommit v s = pinLine (commitPart v 27 s) .release :=
  (commitPart_whole v s).symm.trans (commitPart_succ rfl s)

/-- Up to the latch edge OUT holds. -/
theorem out_commitPart (v : Byte) (s : State) {k : Nat} (hk : k ≤ 26) :
    (commitPart v k s).out = s.out := by
  rcases (by omega : k = 0 ∨ k = 1 ∨ 2 ≤ k) with rfl | rfl | h2
  · rfl
  · rfl
  · obtain ⟨sh, ck, mo, h⟩ := commitPart_inside v s k h2 hk
    rw [h]

/-- The stage holds the byte before the latch edge: no later line clocks it. -/
theorem shift_commitPart_beforeEdge (v : Byte) {s : State} (hs : s.PinsIdle) :
    (commitPart v 26 s).shift = Stage.ofByte v :=
  calc (commitPart v 26 s).shift
    _ = (performCommit v s).shift := by
      rw [performCommit_released, shift_pinLine (by decide), commitPart_latched,
        shift_pinLine (by decide)]
    _ = Stage.ofByte v := by rw [performCommit_eq v hs.2.1]

theorem latch_commitPart_beforeEdge (v : Byte) (s : State) : (commitPart v 26 s).latch = false := by
  obtain ⟨sh, ck, mo, h⟩ := commitPart_inside v s 26 (by decide) le_rfl
  rw [h]

/-- A whole commit between events leaves the pins idle, as they were (40_transport.md R108). -/
theorem performCommit_eq_of_pinsIdle (v : Byte) {s : State} (hs : s.PinsIdle) :
    performCommit v s =
      { s with shift := Stage.ofByte v, out := some v, mosi := none,
               captures := s.captures ++ (captureAt s.out (some v)).toList } := by
  obtain ⟨hlatch, hsclk, hbus⟩ := hs
  rw [performCommit_eq v hsclk, hlatch, hsclk, hbus]

/-! ## The levels at the bus, line by line -/

/-- BUS_OWNED is taken by the first line and released by the last; LATCH falls at the second and rises at
the 27th (40_transport.md R101). -/
theorem levels_commitPart (v : Byte) {s : State} (hs : s.PinsIdle) {k : Nat} (hk : k ≤ 28) :
    (commitPart v k s).busOwned = decide (1 ≤ k ∧ k ≤ 27) ∧
    (commitPart v k s).latch = !decide (2 ≤ k ∧ k ≤ 26) := by
  have ⟨hlatch, _, hbus⟩ := hs
  rcases (by omega : k = 0 ∨ k = 1 ∨ (2 ≤ k ∧ k ≤ 26) ∨ k = 27 ∨ k = 28)
    with rfl | rfl | ⟨hlow, hhigh⟩ | rfl | rfl
  · exact ⟨hbus, hlatch⟩
  · exact ⟨rfl, hlatch⟩
  · obtain ⟨sh, ck, mo, h⟩ := commitPart_inside v s k hlow hhigh
    have howned : 1 ≤ k ∧ k ≤ 27 := by omega
    simp [h, howned, hlow, hhigh]
  · obtain ⟨sh, ck, mo, h⟩ := commitPart_inside v s 26 (by decide) le_rfl
    rw [commitPart_latched, busOwned_latchHigh, h]
    exact ⟨rfl, rfl⟩
  · rw [commitPart_whole, performCommit_eq_of_pinsIdle v hs]
    exact ⟨hbus, hlatch⟩

/-! ## Acceptance, and the packets of an encodable nibble -/

/-- The next state of an acceptance, as the statements write it (10_state.md R39). -/
theorem accept_eq_accepted (op : Op) (es : List Event) (s : State) :
    accept op es s = accepted s op es := rfl

/-- A byte whose low half is 0 is its own high half. -/
theorem hi_of_low_half_zero {p : Byte} (h : p &&& 0x0F#8 = 0#8) : hi p = p :=
  calc hi p
    _ = (p &&& 0xF0#8) ||| (p &&& 0x0F#8) := by rw [h, BitVec.or_zero]; rfl
    _ = p &&& (0xF0#8 ||| 0x0F#8) := BitVec.and_or_distrib_left.symm
    _ = p := BitVec.and_allOnes

/-- The packet of an encodable nibble only adds Enable and RS to it. -/
theorem pack_of_low_half_zero (rs en : Bool) {p : Byte} (h : p &&& 0x0F#8 = 0#8) :
    pack rs en p = p ||| (if en then 2 else 0) ||| (if rs then 1 else 0) :=
  calc pack rs en p
    _ = hi p ||| (bitByte en <<< 1) ||| bitByte rs := rfl
    _ = p ||| (if en then 2 else 0) ||| (if rs then 1 else 0) := by
      rw [hi_of_low_half_zero h]
      cases rs <;> cases en <;> rfl

end Sys2Proof.Machine
end

section
/-! SUPPORT. The statements of 40_transport.md, settled. -/

open Sys2Proof Sys2Proof.Machine Sys2Proof.Certificates

namespace Sys2Proof.Proofs

/-- Settles O23, by the whole commit between events, the last event or not. -/
theorem commitEventEffect : Obligations.CommitEventEffect := by
  intro s v rest hs h
  rcases rest with _ | ⟨e, rest⟩
  · rw [blockStep_last h, performEvent, performCommit_eq_of_pinsIdle v hs]
    simp [complete]
  · rw [blockStep_more h, performEvent, performCommit_eq_of_pinsIdle v hs]
    simp

/-- Settles O25: the eight bits clocked in are the byte, and so they stand before the latch edge. -/
theorem shiftStageTakesTheByte : Obligations.ShiftStageTakesTheByte := by
  refine ⟨shiftIn_ofByte, fun g v => ?_, fun v s hs => ?_⟩
  · rw [foldl_shiftIn_serialBits, toByte?_ofByte]
  · rw [shift_commitPart_beforeEdge v hs, toByte?_ofByte]

/-- Settles O26, by the line that raises LATCH and by every other line. -/
theorem outputsChangeOnlyAtTheLatchEdge : Obligations.OutputsChangeOnlyAtTheLatchEdge := by
  refine ⟨fun v s k hk => out_commitPart v s hk, fun v s _ => ⟨?_, ?_⟩,
    fun s l hl => out_pinLine hl s, fun s h => ?_, fun s h => ?_, fun s p => performWait_out p s⟩
  · simp [commitPart_latched, out_latchHigh, latch_commitPart_beforeEdge]
  · rw [performCommit_released, out_pinLine (by decide)]
  · simp [out_latchHigh, h]
  · simp [out_latchHigh, h]

/-- Settles O8: no check stands before the two, and the packets add Enable and RS to the nibble. -/
theorem rawRequestsAreAccepted : Obligations.RawRequestsAreAccepted := by
  intro s hb
  refine ⟨fun v => ?_, fun rs p hp => ?_⟩
  · rw [exec, execCommit, submitRequest_accepts _ _ hb, accept_eq_accepted]; rfl
  · rw [exec, execSendNibble, submitRequest_accepts _ _ hb, accept_eq_accepted, expandSendNibble,
      nibbleEvents, pack_of_low_half_zero rs false hp, pack_of_low_half_zero rs true hp]
    simp

/-- Settles O28, by the levels after each line. -/
theorem busOwnedOnlyDuringACommit : Obligations.BusOwnedOnlyDuringACommit := by
  intro v s k hs hk
  obtain ⟨hbus, hlatch⟩ := levels_commitPart v hs hk
  simp [hbus, hlatch]

end Sys2Proof.Proofs
end

section
/-! SUPPORT. The packets of the framer under a mask, and the two halves of a byte put together again
(41_nibble_framer.md R121, R126, R129, R132). -/

namespace Sys2Proof.Machine

section
variable (rs en : Bool) (p : Byte)

/-- A mask reaches the three parts of a packet one by one. -/
theorem pack_and (m : Byte) : pack rs en p &&& m =
    (p &&& (0xF0 &&& m)) ||| (bitByte en <<< 1 &&& m) ||| (bitByte rs &&& m) := by
  simp only [pack, BitVec.and_or_distrib_right, BitVec.and_assoc]

theorem pack_and_dataMask : pack rs en p &&& 0xF0 = p &&& 0xF0 := by
  cases rs <;> cases en <;> simp [pack_and, bitByte]

theorem pack_and_rsBit : pack rs en p &&& 0x01 = if rs then 1 else 0 := by
  cases rs <;> cases en <;> simp [pack_and, bitByte]

theorem pack_and_enableBit : pack rs en p &&& 0x02 = if en then 2 else 0 := by
  cases rs <;> cases en <;> simp [pack_and, bitByte]

/-- Bits 2 and 3 are wired to nothing and stay 0 (30_encoding.md R77). -/
theorem pack_and_unwired : pack rs en p &&& 0x0C = 0 := by
  cases rs <;> cases en <;> simp [pack_and, bitByte]

/-- The two bits of that mask, read one by one. -/
theorem getLsbD_pack_unwired {i : Nat} (hi : i = 2 ∨ i = 3) : (pack rs en p).getLsbD i = false := by
  have h := congrArg (·.getLsbD i) (pack_and_unwired rs en p)
  rcases hi with rfl | rfl <;> simpa using h

/-- All but Enable: the data lines and RS. -/
theorem pack_and_dataRs : pack rs en p &&& 0xF1 = (p &&& 0xF0) ||| if rs then 1 else 0 :=
  calc pack rs en p &&& 0xF1
    _ = pack rs en p &&& (0xF0 ||| 0x01) := rfl
    _ = (pack rs en p &&& 0xF0) ||| (pack rs en p &&& 0x01) := BitVec.and_or_distrib_left
    _ = (p &&& 0xF0) ||| if rs then 1 else 0 := by rw [pack_and_dataMask, pack_and_rsBit]

theorem pack_enable_eq_or : pack rs true p = pack rs false p ||| 0x02 := by
  cases rs <;> simp [pack, bitByte, BitVec.or_assoc]

end

/-! ## The halves of a byte (41_nibble_framer.md R129) -/

theorem hi_low_half (b : Byte) : hi b &&& 0x0F#8 = 0#8 := by simp [hi, BitVec.and_assoc]

theorem lo_low_half (b : Byte) : lo b &&& 0x0F#8 = 0#8 := by simp [lo, BitVec.and_assoc]

/-- The shift alone clears the low half. -/
theorem lo_eq_shiftLeft (b : Byte) : lo b = b <<< 4 := by
  revert b; decide

theorem hi_or_lo (b : Byte) : hi b ||| (lo b >>> 4) = b := by
  revert b; decide

end Sys2Proof.Machine
end

section
/-! SUPPORT. The expansions `nibble` and `byte` and every request's expansion: their commits, their events
written out, the output they leave and the capture of a nibble (41_nibble_framer.md R122, R128, R129;
43_lcd_capture.md R191, R192). -/

open Sys2Proof.Certificates

namespace Sys2Proof.Machine

theorem commitsOf_append (a b : List Event) : commitsOf (a ++ b) = commitsOf a ++ commitsOf b :=
  List.filterMap_append ..

theorem commitsOf_nibbleEvents (rs : Bool) (p : Byte) :
    commitsOf (nibbleEvents rs p) = [pack rs false p, pack rs true p, pack rs false p] := rfl

/-- Every commit of a byte is a packet with the byte's register select. -/
theorem mem_commitsOf_byteEvents {rs : Bool} {b v : Byte} (h : v ∈ commitsOf (byteEvents rs b)) :
    ∃ en p, v = pack rs en p := by
  have hwait : commitsOf [.wait .byte] = [] := rfl
  simp only [byteEvents, commitsOf_append, commitsOf_nibbleEvents, hwait, List.mem_append,
    List.mem_cons, List.not_mem_nil, or_false] at h
  rcases h with (h | h | h) | (h | h | h) <;> exact ⟨_, _, h⟩

/-- The events of a byte as the statements write them. -/
theorem byteEvents_eq_elevenEvents (rs : Bool) (b : Byte) :
    byteEvents rs b = elevenEvents (if rs then 1 else 0) b := by
  have hhi (en : Bool) := pack_of_low_half_zero rs en (hi_low_half b)
  have hlo (en : Bool) := pack_of_low_half_zero rs en (lo_low_half b)
  rw [byteEvents, nibbleEvents, nibbleEvents, hhi, hhi, hlo, hlo, lo_eq_shiftLeft, hi]
  simp [elevenEvents]

/-! ## The capture of a nibble -/

/-- The falling edge of a nibble is clean (43_lcd_capture.md R192). -/
theorem captureAt_pack_falling (rs : Bool) (p : Byte) :
    captureAt (some (pack rs true p)) (some (pack rs false p)) =
      some (.exact ⟨rs, (p >>> 4).setWidth 4⟩) := by
  simp [captureAt]

theorem capturesFrom_nibbleEvents {u : Byte} (hu : enableOf u = false) (rs : Bool) (p : Byte) :
    capturesFrom (some u) (nibbleEvents rs p) = [.exact ⟨rs, (p >>> 4).setWidth 4⟩] := by
  have hsetup : captureAt (some u) (some (pack rs false p)) = none :=
    captureAt_eq_none.mpr (.inl hu)
  have hrise : captureAt (some (pack rs false p)) (some (pack rs true p)) = none :=
    captureAt_eq_none.mpr (.inl (enableOf_pack ..))
  simp [nibbleEvents, capturesFrom, hsetup, hrise, captureAt_pack_falling]

/-! ## The output after an expansion -/

section
variable (u : Option Byte)

theorem outAfter_nibbleEvents (rs : Bool) (p : Byte) :
    outAfter u (nibbleEvents rs p) = some (pack rs false p) := rfl

theorem outAfter_byteEvents (rs : Bool) (b : Byte) :
    outAfter u (byteEvents rs b) = some (pack rs false (lo b)) := rfl

/-- The long delay holds the outputs. -/
theorem outAfter_commandEvents (b : Byte) :
    outAfter u (commandEvents b) = some (pack false false (lo b)) := by
  rw [commandEvents, outAfter_append, outAfter_byteEvents]
  split <;> rfl

theorem outAfter_initEvents : outAfter u initEvents = some (pack false false (lo 0x01)) := by
  rw [initEvents, outAfter_append, outAfter_commandEvents]

/-- Every request but COMMIT ends with the Capture packet of a nibble (41_nibble_framer.md R128). -/
theorem outAfter_expand {c : Cfg} {i : Instr} (hi : ∀ v, i ≠ .commit v) (hne : expand c i ≠ []) :
    ∃ rs p, outAfter u (expand c i) = some (pack rs false p) := by
  cases i with
  | commit v => exact absurd rfl (hi v)
  | sendNibble rs p => exact ⟨_, _, outAfter_nibbleEvents u rs p⟩
  | sendByte rs b => exact ⟨_, _, outAfter_byteEvents u rs b⟩
  | writeCommand b => exact ⟨_, _, outAfter_commandEvents u b⟩
  | writeChar b => exact ⟨_, _, outAfter_byteEvents u true b⟩
  | setCursor col row =>
    cases ho : c.rowOffset[row.toNat]? with
    | none => simp [expand, ho] at hne
    | some offset =>
      have hexp : expand c (.setCursor col row) = commandEvents (cursorCommand col offset) := by
        simp [expand, ho, expandSetCursor]
      exact ⟨_, _, hexp ▸ outAfter_commandEvents u _⟩
  | init => exact ⟨_, _, outAfter_initEvents u⟩

end

end Sys2Proof.Machine
end

section
/-! SUPPORT. The Enable pulse of a timed nibble (41_nibble_framer.md R127). -/

namespace Sys2Proof.Machine

/-- A timing of a list of events is one of its first event and one of the rest. -/
theorem eventsOf_eq_cons {tt : Timed} {e : Event} {es : List Event} :
    eventsOf tt = e :: es ↔ ∃ d t, tt = (e, d) :: t ∧ eventsOf t = es := by
  simp [eventsOf, List.map_eq_cons_iff]

theorem eventsOf_eq_nil {tt : Timed} : eventsOf tt = [] ↔ tt = [] := List.map_eq_nil_iff

theorem legalTiming_cons {c : Cfg} {e : Event} {d : Rat} {tt : Timed} :
    legalTiming c ((e, d) :: tt) ↔ minTime c e ≤ d ∧ legalTiming c tt := List.forall_mem_cons

/-! ## A commit of a timing, by Enable before and after it -/

section
variable {u v : Byte} (sofar d : Rat) (tt : Timed)

theorem pulsesFrom_commit_low (hu : enableOf u = false) :
    pulsesFrom (some u) sofar ((.commit v, d) :: tt) = pulsesFrom (some v) 0 tt := by
  simp [pulsesFrom, hu]

theorem pulsesFrom_commit_falling (hu : enableOf u = true) (hv : enableOf v = false) :
    pulsesFrom (some u) sofar ((.commit v, d) :: tt) =
      (sofar + d) :: pulsesFrom (some v) 0 tt := by
  simp [pulsesFrom, hu, hv]

end

/-- From Enable low a nibble makes one pulse: the wait with Enable high, then the Capture commit. -/
theorem pulsesFrom_nibble {u : Byte} (hu : enableOf u = false) {rs : Bool} {p : Byte} {tt : Timed}
    (ht : eventsOf tt = nibbleEvents rs p) {c : Cfg} (hl : legalTiming c tt) (sofar : Rat) :
    ∃ high capture, pulsesFrom (some u) sofar tt = [high + capture] ∧
      c.tEnHigh ≤ high ∧ commitTime c ≤ capture := by
  simp only [nibbleEvents, eventsOf_eq_cons, eventsOf_eq_nil] at ht
  obtain ⟨setup, _, rfl, rise, _, rfl, high, _, rfl, capture, _, rfl, settle, _, rfl, rfl⟩ := ht
  simp only [legalTiming_cons] at hl
  obtain ⟨-, -, hhigh, hcapture, -⟩ := hl
  refine ⟨high, capture, ?_, hhigh, hcapture⟩
  rw [pulsesFrom_commit_low _ _ _ hu, pulsesFrom_commit_low _ _ _ (enableOf_pack ..), pulsesFrom,
    pulsesFrom_commit_falling _ _ _ (enableOf_pack ..) (enableOf_pack ..), zero_add]
  rfl

/-- The floor of T_EN_HIGH (10_state.md R31). -/
theorem enHigh_floor {c : Cfg} (hc : cfgWf c = true) : 450 ≤ c.tEnHigh := by
  obtain ⟨-, -, -, hdelay⟩ := cfgWf_iff.mp hc
  exact delayOk_iff.mp (hdelay .enHigh)

theorem commitTime_pos {c : Cfg} (hc : cfgWf c = true) : 0 < commitTime c := by
  obtain ⟨-, hsclk, -, -⟩ := cfgWf_iff.mp hc
  exact div_pos (by norm_num) hsclk

end Sys2Proof.Machine
end

section
/-! SUPPORT. The statements of 41_nibble_framer.md, settled. -/

open Sys2Proof Sys2Proof.Machine Sys2Proof.Certificates

namespace Sys2Proof.Proofs

/-- Settles O39, by the one falling edge of a nibble and by the last packet of each expansion. -/
theorem nibbleIsCapturedOnceAndClean : Obligations.NibbleIsCapturedOnceAndClean := by
  refine ⟨fun u rs p hu => capturesFrom_nibbleEvents hu rs p, fun c u i hi hne => ?_⟩
  obtain ⟨rs, p, hout⟩ := outAfter_expand u hi hne
  exact ⟨_, hout, enableOf_pack rs false p⟩

/-- Settles O56: the pulse is the wait and the Capture commit, each at or above its bound. -/
theorem enablePulseWidth : Obligations.EnablePulseWidth := by
  intro c u rs p tt hc hu ht hl
  obtain ⟨high, capture, hpulse, hhigh, hcapture⟩ := pulsesFrom_nibble hu ht hl 0
  have hwidth : c.tEnHigh + commitTime c ≤ high + capture := add_le_add hhigh hcapture
  have hfloor : 450 ≤ c.tEnHigh + commitTime c :=
    (enHigh_floor hc).trans (le_add_of_nonneg_right (commitTime_pos hc).le)
  exact ⟨_, hpulse, hwidth, hfloor.trans hwidth⟩

/-- Settles O9: the gate of INIT is open, and the byte's packets are those of the eleven events. -/
theorem byteRequestsAreAccepted : Obligations.ByteRequestsAreAccepted := by
  intro s hb hd
  have hgate : needsInit s = none := needsInit_eq_none.mpr hd
  refine ⟨fun rs b => ?_, fun b => ?_⟩
  · rw [exec, execSendByte, hgate, submitRequest_accepts _ _ hb, accept_eq_accepted, expandSendByte,
      byteEvents_eq_elevenEvents]
  · rw [exec, execWriteChar, hgate, submitRequest_accepts _ _ hb, accept_eq_accepted,
      expandWriteChar, byteEvents_eq_elevenEvents, if_pos rfl]

/-- Settles O30, mask by mask. -/
theorem packLaws : Obligations.PackLaws := by
  intro rs en p
  exact ⟨pack_and_dataMask rs en p, pack_and_rsBit rs en p, pack_and_enableBit rs en p,
    pack_and_unwired rs en p, pack_enable_eq_or rs p⟩

/-- Settles O31: the Enable bit of each packet, and the rest, in which the three agree. -/
theorem nibblePacketLaws : Obligations.NibblePacketLaws := by
  intro rs p
  have hlow : pack rs false p &&& enableBit = 0 := pack_and_enableBit rs false p
  have hhigh : pack rs true p &&& enableBit = 2 := pack_and_enableBit rs true p
  refine ⟨_, _, _, commitsOf_nibbleEvents rs p, hlow, ?_, hlow, pack_and_dataRs rs false p,
    pack_and_dataRs rs true p, pack_and_dataRs rs false p, rfl⟩
  rw [hhigh]
  decide

/-- Settles O32: the data lines of the two packets are the two halves of the byte. -/
theorem byteRoundTrip : Obligations.ByteRoundTrip := by
  intro rs b
  have hhi : hi b &&& 0xF0 = hi b := hi_of_low_half_zero (hi_low_half b)
  have hlo : lo b &&& 0xF0 = lo b := hi_of_low_half_zero (lo_low_half b)
  have hround : (pack rs false (hi b) &&& (0xF0 : Byte)) |||
      ((pack rs false (lo b) &&& (0xF0 : Byte)) >>> 4) = b := by
    rw [pack_and_dataMask, pack_and_dataMask, hhi, hlo, hi_or_lo]
  exact ⟨_, _, rfl, rfl, hround⟩

/-- Settles O33: each commit is a packet with the byte's register select. -/
theorem everyPacketCarriesItsRs : Obligations.EveryPacketCarriesItsRs := by
  intro rs b v hv
  obtain ⟨en, p, rfl⟩ := mem_commitsOf_byteEvents hv
  exact ⟨rsOf_pack rs en p, getLsbD_pack_unwired rs en p (.inl rfl),
    getLsbD_pack_unwired rs en p (.inr rfl)⟩

end Sys2Proof.Proofs
end

section
/-! SUPPORT. The long delay of a command, the seventy events of INIT and the row offsets, as the statements
write them (42_lcd_commands.md R151, R155, R166, R171; 10_state.md R35). -/

open Sys2Proof.Certificates

namespace Sys2Proof.Machine

theorem long_not_mem_byteEvents (rs : Bool) (b : Byte) : Event.wait .long ∉ byteEvents rs b := by
  simp [byteEvents, nibbleEvents]

/-- Only the timing class adds the long delay (42_lcd_commands.md R152). -/
theorem long_mem_commandEvents {b : Byte} : Event.wait .long ∈ commandEvents b ↔ isLong b = true := by
  simp [commandEvents, long_not_mem_byteEvents]

/-- A command whose class is not LONG is a byte. -/
theorem commandEvents_of_short {b : Byte} (h : isLong b = false) :
    commandEvents b = byteEvents false b := by
  simp [commandEvents, h]

/-- The events of a command as the statements write them. -/
theorem commandEvents_eq_elevenEvents (b : Byte) :
    commandEvents b =
      elevenEvents 0 b ++ if b = 0x01 ∨ b = 0x02 then [.wait .long] else [] := by
  simp only [commandEvents, byteEvents_eq_elevenEvents, isLong_iff]
  rfl

/-- A command up to its last commit, that commit, and the waits after it (42_lcd_commands.md R155). -/
theorem commandEvents_split (b : Byte) :
    commandEvents b =
      (nibbleEvents false (hi b) ++ (nibbleEvents false (lo b)).take 3) ++
        .commit (pack false false (lo b)) ::
          if b = 0x01 ∨ b = 0x02 then [.wait .nibble, .wait .byte, .wait .long]
          else [.wait .nibble, .wait .byte] := by
  simp only [commandEvents, isLong_iff]
  split <;> rfl

/-- The waits after a long command's last commit are above 1.52 ms: T_LONG alone has that floor
(10_state.md R31). -/
theorem longCommandDelay_floor {c : Cfg} (hc : cfgWf c = true) :
    1520000 < c.tNibble + c.tByte + c.tLong := by
  obtain ⟨-, -, -, hdelay⟩ := cfgWf_iff.mp hc
  have hnibble : 0 < c.tNibble := delayOf_pos (hdelay .nibble)
  have hbyte : 0 < c.tByte := delayOf_pos (hdelay .byte)
  have hlong : 1520000 ≤ c.tLong := delayOk_iff.mp (hdelay .long)
  linarith

theorem leastTime_longWaits (c : Cfg) :
    leastTime c [.wait .nibble, .wait .byte, .wait .long] = c.tNibble + c.tByte + c.tLong := by
  simp [leastTime, minTime, delayOf, add_assoc]

theorem expandInit_eq_vector : expandInit = initVectorRaw ++ initVectorCommands := by decide

/-- The offset of a row below ROWS is that of its geometry's table (10_state.md R35). -/
theorem rowOffset_toNat {c : Cfg} (hc : cfgWf c = true) {n : Nat} (hn : n < c.rows) :
    ∃ offset, c.rowOffset[n]? = some offset ∧ offset.toNat = offsetOfRow n := by
  obtain ⟨htable, -⟩ := cfgWf_iff.mp hc
  obtain ⟨hrows, ht⟩ | ⟨hrows, ht⟩ := rowOffsetTable_eq_some.mp htable
  all_goals
    rw [ht]
    rw [hrows] at hn
    interval_cases n <;> exact ⟨_, rfl, rfl⟩

/-- A SET_CURSOR is short: the eleven events of its command byte (42_lcd_commands.md R165). -/
theorem expandSetCursor_eq_elevenEvents (col offset : Byte) :
    expandSetCursor col offset = elevenEvents 0 (cursorCommand col offset) := by
  rw [expandSetCursor, commandEvents_of_short (isLong_cursorCommand col offset),
    byteEvents_eq_elevenEvents]
  rfl

end Sys2Proof.Machine
end

section
/-! SUPPORT. Runs with an offer held on the port while the block works off a request, and the loop PRINT_STRING
character by character (42_lcd_commands.md R176; 60_exceptions.md R213, R216). -/

open Sys2Proof.Certificates

namespace Sys2Proof.Machine

/-- The invariant holds along every run. -/
theorem runSteps_inv {n : Nat} {s t : State} (hs : s.Inv) (h : runSteps n s = .next t) : t.Inv := by
  induction n generalizing s with
  | zero => cases h; exact hs
  | succ n ih =>
    rw [runSteps_succ_eq] at h
    cases hstep : step s with
    | next u =>
      rw [hstep, andThen_next] at h
      exact ih ((step_move hstep).inv hs) h
    | fault r => rw [hstep] at h; cases h
    | refused r => rw [hstep] at h; cases h

/-- What the host leaves on the port while BUSY: a word, or a text that offers its next character. -/
def isOffer : Input → Bool
  | .submit _ | .printString _ => true
  | .blockTurn | .reset | .resetInside _ | .powerCycle => false

/-- While BUSY an offer is held and the block moves (60_exceptions.md R216). -/
theorem step_holdsOffer {s : State} {i : Input} {rest : List Input} (hc : cfgWf s.cfg = true)
    (hb : s.busy = true) (hi : s.inputs = i :: rest) (ho : isOffer i = true) :
    step s = .next (blockStep s) := by
  cases i with
  | submit w => simp [step_eq_agentTurn hc, agentTurn, hb, hi]
  | printString text => simp [step_eq_agentTurn hc, agentTurn, hb, hi]
  | _ => cases ho

/-- `runSteps_performs` with an offer held: as many steps as there are events in `done` perform them. -/
theorem runSteps_performs_holdingOffer {done after : List Event} {s : State} {i : Input}
    {rest : List Input} (hc : cfgWf s.cfg = true) (hp : s.PinsIdle) (hi : s.inputs = i :: rest)
    (ho : isOffer i = true) (hb : done ≠ [] → s.busy = true) (h : s.pending = done ++ after) :
    ∃ t, runSteps done.length s = .next t ∧ RunSays s t done after := by
  induction done generalizing s with
  | nil => exact ⟨s, rfl, by simpa [h] using RunSays.refl hp⟩
  | cons e es ih =>
    have hbusy : s.busy = true := hb (List.cons_ne_nil e es)
    have hs : BlockStepSays s (blockStep s) e (es ++ after) := blockStep_says h hp
    have hmore : es ≠ [] → (blockStep s).busy = true := fun hes =>
      (hs.more (List.append_ne_nil_of_left_ne_nil hes after)).1.trans hbusy
    obtain ⟨t, ht, hr⟩ := ih (by rw [hs.cfg]; exact hc) hs.pins (hs.inputs.trans hi) hmore hs.pending
    refine ⟨t, ?_, .cons hs hr⟩
    rw [List.length_cons, runSteps_succ _ (step_holdsOffer hc hbusy hi ho), ht]

/-! ## One turn of the loop -/

/-- The characters PRINT_STRING sends: those before the first 0x00 (42_lcd_commands.md R176). -/
def printed (text : List Byte) : List Byte := text.takeWhile (· ≠ 0)

theorem printed_cons {c : Byte} (more : List Byte) (hne : c ≠ 0) :
    printed (c :: more) = c :: printed more :=
  List.takeWhile_cons_of_pos (decide_eq_true hne)

/-- The first character the loop sends is the head of the text. -/
theorem printed_eq_cons {text : List Byte} {c : Byte} {cs : List Byte} (h : printed text = c :: cs) :
    c ≠ 0 ∧ ∃ more, text = c :: more ∧ printed more = cs := by
  cases text with
  | nil => cases h
  | cons d more =>
    by_cases hd : d = 0
    · simp [printed, hd] at h
    · rw [printed_cons more hd] at h
      cases h
      exact ⟨hd, more, rfl, rfl⟩

/-- Where no character is left, the loop offers nothing. -/
theorem reqWord_eq_none_of_printed {s : State} {text : List Byte} {rest : List Input}
    (hi : s.inputs = .printString text :: rest) (h : printed text = []) : reqWord s = none := by
  cases text with
  | nil => simp [reqWord, hi]
  | cons c more =>
    have hzero : c = 0 := by
      by_contra hne
      simp [printed_cons more hne] at h
    simp [reqWord, hi, hzero]

/-- The loop ends before the first 0x00 or at the end of the text. -/
theorem step_endText {s : State} {text : List Byte} {rest : List Input} (hc : cfgWf s.cfg = true)
    (hb : s.busy = false) (hi : s.inputs = .printString text :: rest) (h : printed text = []) :
    step s = .next (takeInput rest s) := by
  rw [step_printString hc hb hi, printTurn_eq hi, reqWord_eq_none_of_printed hi h]

/-- Before INIT a character is rejected (60_exceptions.md R213). -/
theorem exec_writeChar_beforeInit (c : Byte) {s : State} (hb : s.busy = false)
    (hd : s.initDone = false) : exec (.writeChar c) s = .next (setErr s .notInitialized) := by
  have hgate : needsInit s = some .notInitialized := by simp [needsInit, hd]
  rw [exec, execWriteChar, hgate, submitRequest_rejects _ _ _ hb, reject_eq_setErr]

/-- After INIT a character is accepted (42_lcd_commands.md R158). -/
theorem exec_writeChar_afterInit (c : Byte) {s : State} (hb : s.busy = false)
    (hd : s.initDone = true) :
    exec (.writeChar c) s = .next (accept .writeChar (expandWriteChar c) s) := by
  rw [exec, execWriteChar, needsInit_eq_none.mpr hd, submitRequest_accepts _ _ hb]

/-- A character of the text is submitted with WRITE_CHAR, and the loop goes on with the rest. -/
theorem step_printChar {s : State} {c : Byte} {more : List Byte} {rest : List Input}
    (hc : cfgWf s.cfg = true) (hb : s.busy = false)
    (hi : s.inputs = .printString (c :: more) :: rest) (hne : c ≠ 0) :
    step s = exec (.writeChar c) (takeInput (.printString more :: rest) s) :=
  (Sys2Proof.Proofs.stepRunsTheDecodedRequest.2 s c more rest hc hb hi hne).2

/-! ## The whole loop -/

/-- Before INIT the loop runs to its end, and only ERR and the port change (60_exceptions.md R213). -/
theorem runSteps_printString_beforeInit {text : List Byte} {rest : List Input} {s : State}
    (hc : cfgWf s.cfg = true) (hb : s.busy = false) (hd : s.initDone = false)
    (hi : s.inputs = .printString text :: rest) :
    ∃ n, runSteps n s = .next { s with
      inputs := rest, err := if printed text = [] then s.err else 2 } := by
  induction hcs : printed text generalizing text s with
  | nil => exact ⟨1, runSteps_succ 0 (step_endText hc hb hi hcs)⟩
  | cons c cs ih =>
    obtain ⟨hne, more, rfl, hmore⟩ := printed_eq_cons hcs
    have hstep := (step_printChar hc hb hi hne).trans
      (exec_writeChar_beforeInit c (s := takeInput (.printString more :: rest) s) hb hd)
    obtain ⟨n, hn⟩ := ih (s := setErr (takeInput (.printString more :: rest) s) .notInitialized)
      hc hb hd rfl hmore
    refine ⟨n + 1, ?_⟩
    rw [runSteps_succ n hstep, hn]
    congr 2
    split <;> rfl

/-- A run between idle states of an initialized block, which performs `es` and leaves the outside `rest`. -/
structure IdleRun (s t : State) (es : List Event) (rest : List Input) : Prop where
  inv      : t.Inv
  idle     : t.busy = false
  initDone : t.initDone = true
  inputs   : t.inputs = rest
  cfg      : t.cfg = s.cfg
  trace    : t.trace = s.trace ++ es
  out      : t.out = outAfter s.out es
  captures : t.captures = s.captures ++ capturesFrom s.out es

theorem IdleRun.trans {s u t : State} {a b : List Event} {rest rest' : List Input}
    (h : IdleRun s u a rest) (h' : IdleRun u t b rest') : IdleRun s t (a ++ b) rest' where
  inv := h'.inv
  idle := h'.idle
  initDone := h'.initDone
  inputs := h'.inputs
  cfg := h'.cfg.trans h.cfg
  trace := by rw [h'.trace, h.trace, List.append_assoc]
  out := by rw [h'.out, h.out, outAfter_append]
  captures := by rw [h'.captures, h.captures, h.out, capturesFrom_append, List.append_assoc]

/-- A step that takes an input and does nothing else. -/
theorem IdleRun.of_takeInput {s : State} (hinv : s.Inv) (hb : s.busy = false) (hd : s.initDone = true)
    (rest : List Input) : IdleRun s (takeInput rest s) [] rest where
  inv := takeInput_inv rest hinv
  idle := hb
  initDone := hd
  inputs := rfl
  cfg := rfl
  trace := (List.append_nil _).symm
  out := rfl
  captures := (List.append_nil _).symm

/-- One character after INIT: accepted, and its eleven events performed with the rest of the text held. -/
theorem runSteps_printChar {c : Byte} {more : List Byte} {rest : List Input} {s : State}
    (hc : cfgWf s.cfg = true) (hinv : s.Inv) (hb : s.busy = false) (hd : s.initDone = true)
    (hi : s.inputs = .printString (c :: more) :: rest) (hne : c ≠ 0) :
    ∃ n t, runSteps n s = .next t ∧ IdleRun s t (expandWriteChar c) (.printString more :: rest) := by
  have hstep := (step_printChar hc hb hi hne).trans
    (exec_writeChar_afterInit c (s := takeInput (.printString more :: rest) s) hb hd)
  obtain ⟨t, ht, hr⟩ := runSteps_performs_holdingOffer (i := .printString more) (after := [])
    (s := accept .writeChar (expandWriteChar c) (takeInput (.printString more :: rest) s))
    hc hinv.pins rfl rfl (fun _ => rfl) (List.append_nil _).symm
  have hrun := (runSteps_succ _ hstep).trans ht
  have hevents : expandWriteChar c ≠ [] := by simp [expandWriteChar, byteEvents]
  obtain ⟨hbusy, -, hdone⟩ := hr.last hevents rfl
  exact ⟨_, t, hrun, runSteps_inv hinv hrun, hbusy, by simp [hdone, hd], hr.inputs, hr.cfg, hr.trace,
    hr.out, hr.captures⟩

/-- After INIT the loop adds the expansion of each character and ends idle (42_lcd_commands.md R177). -/
theorem runSteps_printString_afterInit {text : List Byte} {rest : List Input} {s : State}
    (hc : cfgWf s.cfg = true) (hinv : s.Inv) (hb : s.busy = false) (hd : s.initDone = true)
    (hi : s.inputs = .printString text :: rest) :
    ∃ n t, runSteps n s = .next t ∧ IdleRun s t ((printed text).flatMap expandWriteChar) rest := by
  induction hcs : printed text generalizing text s with
  | nil =>
    exact ⟨1, _, runSteps_succ 0 (step_endText hc hb hi hcs), .of_takeInput hinv hb hd rest⟩
  | cons c cs ih =>
    obtain ⟨hne, more, rfl, hmore⟩ := printed_eq_cons hcs
    obtain ⟨n, u, hn, hu⟩ := runSteps_printChar hc hinv hb hd hi hne
    obtain ⟨m, t, hm, ht⟩ :=
      ih (by rw [hu.cfg]; exact hc) hu.inv hu.idle hu.initDone hu.inputs hmore
    exact ⟨n + m, t, (runSteps_add m hn).trans hm, hu.trans ht⟩

/-! ## What the loop adds -/

/-- Eleven events and six commits a character (42_lcd_commands.md R177). -/
theorem hasSize_expandWriteChars (cs : List Byte) :
    HasSize (cs.flatMap expandWriteChar) (6 * cs.length) (11 * cs.length) := by
  induction cs with
  | nil => exact ⟨rfl, rfl⟩
  | cons c cs ih =>
    rw [List.flatMap_cons, List.length_cons, Nat.mul_succ, Nat.mul_succ, Nat.add_comm,
      Nat.add_comm _ 11]
    exact (hasSize_byteEvents true c).append ih

/-- Every packet of a character has RS = 1 (41_nibble_framer.md R131). -/
theorem rs_of_mem_commitsOf_expandWriteChars {cs : List Byte} {v : Byte}
    (h : v ∈ commitsOf (cs.flatMap expandWriteChar)) : v.getLsbD 0 = true := by
  induction cs with
  | nil => cases h
  | cons c cs ih =>
    rw [List.flatMap_cons, commitsOf_append] at h
    rcases List.mem_append.mp h with hc | hcs
    · exact (Sys2Proof.Proofs.everyPacketCarriesItsRs true c v hc).1
    · exact ih hcs

end Sys2Proof.Machine
end

section
/-! SUPPORT. The statements of 42_lcd_commands.md, settled. -/

open Sys2Proof Sys2Proof.Machine Sys2Proof.Certificates

namespace Sys2Proof.Proofs

/-- Settles O41, by the loop character by character, each accepted and run with the rest of the text held. -/
theorem printStringSendsEachCharacter : Obligations.PrintStringSendsEachCharacter := by
  intro s text hc hinv hb hd hi
  obtain ⟨n, t, hn, ht⟩ := runSteps_printString_afterInit hc hinv hb hd hi
  have hpending : t.pending = [] := by simpa [ht.idle] using ht.inv.busy.2
  obtain ⟨hcommits, hevents⟩ := hasSize_expandWriteChars (printed text)
  exact ⟨n, t, _, hn, ⟨ht.idle, hpending, ht.inputs⟩, ht.trace, rfl, hevents, hcommits,
    fun v => rs_of_mem_commitsOf_expandWriteChars⟩

/-- Settles O42, by the loop character by character, each rejected. -/
theorem printStringBeforeInitAddsNothing : Obligations.PrintStringBeforeInitAddsNothing := by
  intro s text hc hb _ hd hi
  exact runSteps_printString_beforeInit hc hb hd hi

/-- Settles O11: the checks pass, and the command byte is never in the long class. -/
theorem setCursorIsAccepted : Obligations.SetCursorIsAccepted := by
  intro s col row hc hb hd hrow
  obtain ⟨offset, hoffset, hnat⟩ := rowOffset_toNat hc hrow
  have hexpand : expand s.cfg (.setCursor col row) = elevenEvents 0 (cursorCommand col offset) := by
    simp [expand, hoffset, expandSetCursor_eq_elevenEvents]
  refine ⟨cursorCommand col offset, by rw [cursorCommand_toNat, hnat], ?_⟩
  rw [exec_eq_submission _ hc, submission_accepts (i := .setCursor col row) hb ⟨hd, hrow⟩, hexpand]
  rfl

/-- Settles O34: the list cut at its last commit, and the floors of the three delays. -/
theorem commandDelayByTimingClass : Obligations.CommandDelayByTimingClass := by
  intro c b hc
  refine ⟨_, _, _, commandEvents_split b, rfl, fun hlong => ⟨longCommandDelay_floor hc, ?_⟩⟩
  intro tt htt hlegal
  rw [if_pos hlong] at htt
  rw [← leastTime_longWaits, ← htt]
  exact leastTime_le_elapsed c tt hlegal

/-- Settles O10: the gate of INIT is open, and the events are those of the byte and its class. -/
theorem writeCommandIsAccepted : Obligations.WriteCommandIsAccepted := by
  intro s b hb hd
  rw [exec, execWriteCommand, needsInit_eq_none.mpr hd, submitRequest_accepts _ _ hb,
    accept_eq_accepted, expandWriteCommand, commandEvents_eq_elevenEvents]

/-- Settles O12: the gate is open before INIT, and the expansion is the vector. -/
theorem initIsAccepted : Obligations.InitIsAccepted := by
  intro s hb hd
  rw [exec, execInit, onlyBeforeInit_eq_none.mpr hd, submitRequest_accepts _ _ hb,
    accept_eq_accepted, expandInit_eq_vector]

/-- Settles O35: a byte has no long delay, and a command has it by its class. -/
theorem longDelayOnlyOnTheCommandPath : Obligations.LongDelayOnlyOnTheCommandPath := by
  refine ⟨fun b => long_mem_commandEvents.trans isLong_iff, fun col offset => long_mem_commandEvents,
    ?_, long_not_mem_byteEvents true, long_not_mem_byteEvents⟩
  rw [expandInit_eq_vector]
  decide

end Sys2Proof.Proofs
end

section
/-! SUPPORT. What the LCD reads off an output, as masks (30_encoding.md R77; 43_lcd_capture.md R191). -/

namespace Sys2Proof.Machine

theorem enableOf_eq_mask (v : Byte) : enableOf v = decide (v &&& 0x02 ≠ 0) := by revert v; decide

theorem rsOf_eq_mask (v : Byte) : rsOf v = decide (v &&& 0x01 ≠ 0) := by revert v; decide

theorem nibOf_eq_shift (v : Byte) : nibOf v = (v >>> 4).setWidth 4 := by revert v; decide

/-- The mask of RS and the data lines keeps both and nothing else. -/
theorem mask_dataRs (v : Byte) :
    v &&& 0xF1#8 = (nibOf v).setWidth 8 <<< 4 ||| bitByte (rsOf v) ∧
    rsOf (v &&& 0xF1#8) = rsOf v ∧ nibOf (v &&& 0xF1#8) = nibOf v := by
  revert v; decide

theorem sameData_eq_mask (u v : Byte) : sameData u v = decide (u &&& 0xF1#8 = v &&& 0xF1#8) := by
  obtain ⟨hu, hur, hun⟩ := mask_dataRs u
  obtain ⟨hv, hvr, hvn⟩ := mask_dataRs v
  have h : (rsOf u = rsOf v ∧ nibOf u = nibOf v) ↔ u &&& 0xF1#8 = v &&& 0xF1#8 := by
    constructor
    · rintro ⟨hr, hn⟩
      rw [hu, hv, hr, hn]
    · intro h
      rw [← hur, ← hvr, ← hun, ← hvn, h]
      exact ⟨rfl, rfl⟩
  rw [decide_eq_decide.mpr h.symm, Bool.decide_and]
  rfl

end Sys2Proof.Machine
end

section
/-! SUPPORT. A trace of R194 as sends: INIT and the byte requests are nibbles, each followed by waits
(41_nibble_framer.md R122, R129; 42_lcd_commands.md R151, R171). -/

namespace Sys2Proof.Machine

/-- One nibble with the waits between it and the next (41_nibble_framer.md R122). -/
structure Send where
  rs    : Bool
  p     : Byte
  after : List Delay

/-- The events of a send. -/
def Send.events (x : Send) : List Event := nibbleEvents x.rs x.p ++ x.after.map .wait

/-- The nibble the LCD latches for a send (43_lcd_capture.md R192). -/
def Send.latched (x : Send) : Latched := ⟨x.rs, (x.p >>> 4).setWidth 4⟩

/-- One byte with the waits that follow its settle (41_nibble_framer.md R129). -/
structure ByteSend where
  rs    : Bool
  b     : Byte
  after : List Delay

/-- The two sends of a byte. -/
def ByteSend.sends (x : ByteSend) : List Send :=
  [⟨x.rs, hi x.b, []⟩, ⟨x.rs, lo x.b, .byte :: x.after⟩]

/-- The events of a list of bytes. -/
def byteListEvents (bs : List ByteSend) : List Event := (bs.flatMap ByteSend.sends).flatMap Send.events

/-- The transaction the controller makes of a byte (43_lcd_capture.md R193, R194). -/
def ByteSend.transaction (x : ByteSend) : Transaction := .byte x.rs x.b true

/-- The byte of a command, with the long delay of its class (42_lcd_commands.md R151). -/
def commandSend (b : Byte) : ByteSend := ⟨false, b, if isLong b then [.long] else []⟩

/-- The bytes of a request on an initialized block; a rejected one has none (43_lcd_capture.md R194). -/
def requestBytes (c : Cfg) : Instr → List ByteSend
  | .sendByte rs b => [⟨rs, b, []⟩]
  | .writeCommand b => [commandSend b]
  | .writeChar b => [⟨true, b, []⟩]
  | .setCursor col row =>
    (c.rowOffset[row.toNat]?).toList.map fun offset => commandSend (cursorCommand col offset)
  | .commit _ | .sendNibble _ _ | .init => []

/-- The four raw nibbles of INIT (42_lcd_commands.md R171). -/
def rawSends : List Send :=
  [⟨false, 0x30, [.reset1]⟩, ⟨false, 0x30, [.reset2]⟩,
   ⟨false, 0x30, [.reset3]⟩, ⟨false, 0x20, [.reset4]⟩]

/-- The four commands of INIT (42_lcd_commands.md R171). -/
def initCommands : List ByteSend := [commandSend 0x28, commandSend 0x0C, commandSend 0x06, commandSend 0x01]

/-- The sends of INIT followed by the bytes `bs`. -/
def sendsAfterInit (bs : List ByteSend) : List Send :=
  rawSends ++ (initCommands ++ bs).flatMap ByteSend.sends

/-- INIT followed by the bytes `bs`, as events. -/
def initTrace (bs : List ByteSend) : List Event :=
  .wait .powerOn :: (sendsAfterInit bs).flatMap Send.events

/-! ## The expansions as sends -/

@[simp] theorem byteListEvents_nil : byteListEvents [] = [] := rfl

theorem byteListEvents_append (as bs : List ByteSend) :
    byteListEvents (as ++ bs) = byteListEvents as ++ byteListEvents bs := by
  simp [byteListEvents]

theorem byteListEvents_singleton (x : ByteSend) :
    byteListEvents [x] = byteEvents x.rs x.b ++ x.after.map .wait := by
  simp [byteListEvents, ByteSend.sends, Send.events, byteEvents]

theorem byteListEvents_commandSend (b : Byte) : byteListEvents [commandSend b] = commandEvents b := by
  rw [byteListEvents_singleton, commandEvents, commandSend]
  cases isLong b <;> rfl

/-- The expansion of a byte request is that of its bytes (43_lcd_capture.md R194). -/
theorem expand_eq_byteListEvents (c : Cfg) {i : Instr} (h : byteRequest i = true) :
    expand c i = byteListEvents (requestBytes c i) := by
  cases i with
  | sendByte rs b => exact ((byteListEvents_singleton _).trans (List.append_nil _)).symm
  | writeCommand b => exact (byteListEvents_commandSend b).symm
  | writeChar b => exact ((byteListEvents_singleton _).trans (List.append_nil _)).symm
  | setCursor col row =>
    cases ho : c.rowOffset[row.toNat]? with
    | none => simp [expand, requestBytes, ho, byteListEvents]
    | some offset => simp [expand, requestBytes, ho, expandSetCursor, byteListEvents_commandSend]
  | commit v => cases h
  | sendNibble rs p => cases h
  | init => cases h

theorem flatMap_expand_eq_byteListEvents (c : Cfg) {reqs : List Instr}
    (h : ∀ i ∈ reqs, byteRequest i = true) :
    reqs.flatMap (expand c) = byteListEvents (reqs.flatMap (requestBytes c)) := by
  induction reqs with
  | nil => rfl
  | cons i reqs ih =>
    obtain ⟨hi, hreqs⟩ := List.forall_mem_cons.mp h
    rw [List.flatMap_cons, List.flatMap_cons, byteListEvents_append, expand_eq_byteListEvents c hi, ih hreqs]

/-- The bytes of a text (42_lcd_commands.md R177). -/
theorem byteListEvents_chars (cs : List Byte) :
    byteListEvents (cs.map fun b => ⟨true, b, []⟩) = cs.flatMap expandWriteChar := by
  induction cs with
  | nil => rfl
  | cons b cs ih =>
    rw [List.map_cons, List.flatMap_cons, ← List.singleton_append, byteListEvents_append, ih,
      byteListEvents_singleton]
    exact congrArg (· ++ _) (List.append_nil _)

theorem expandInit_append_byteListEvents (bs : List ByteSend) :
    expandInit ++ byteListEvents bs = initTrace bs := by
  have hcommands : byteListEvents initCommands =
      commandEvents 0x28 ++ commandEvents 0x0C ++ commandEvents 0x06 ++ commandEvents 0x01 := by
    decide
  have hinit : expandInit =
      .wait .powerOn :: (rawSends.flatMap Send.events ++ byteListEvents initCommands) := by
    decide
  simp [hinit, initTrace, sendsAfterInit, byteListEvents]

/-- A trace of R194 as sends. -/
theorem trace_eq_initTrace (c : Cfg) {reqs : List Instr} (h : ∀ i ∈ reqs, byteRequest i = true) :
    expand c .init ++ reqs.flatMap (expand c) = initTrace (reqs.flatMap (requestBytes c)) := by
  rw [flatMap_expand_eq_byteListEvents c h]
  exact expandInit_append_byteListEvents _

/-- The first commit of such a trace leaves Enable low. -/
theorem initTrace_eq_cons (bs : List ByteSend) :
    ∃ es, initTrace bs = .wait .powerOn :: .commit (pack false false 0x30) :: es := ⟨_, rfl⟩

/-- The bytes of a request are those the model's own list has. -/
theorem bytesSent_eq_map (c : Cfg) (i : Instr) :
    bytesSent c i = (requestBytes c i).map fun x => (x.rs, x.b) := by
  cases i with
  | setCursor col row => simp [bytesSent, requestBytes, commandSend, Function.comp_def]
  | _ => rfl

/-! ## What the LCD captures and how it groups it (43_lcd_capture.md R191 to R193) -/

theorem capturesFrom_waits (u : Option Byte) (ps : List Delay) :
    capturesFrom u (ps.map .wait) = [] := by
  induction ps with
  | nil => rfl
  | cons p ps ih => exact ih

theorem outAfter_waits (u : Option Byte) (ps : List Delay) : outAfter u (ps.map .wait) = u := by
  induction ps with
  | nil => rfl
  | cons p ps ih => exact ih

/-- From Enable low each send is captured once, clean. -/
theorem capturesFrom_sends {u : Byte} (hu : enableOf u = false) (xs : List Send) :
    capturesFrom (some u) (xs.flatMap Send.events) = (xs.map Send.latched).map .exact := by
  induction xs generalizing u with
  | nil => rfl
  | cons x xs ih =>
    rw [List.flatMap_cons, Send.events, List.append_assoc, capturesFrom_append, capturesFrom_append,
      capturesFrom_nibbleEvents hu, outAfter_nibbleEvents, capturesFrom_waits, outAfter_waits,
      ih (enableOf_pack ..)]
    rfl

/-- From unknown outputs the first commit of INIT may capture, and goes on as from Enable low (R191, R254). -/
theorem capturesFrom_initTrace {u : Option Byte} (hu : EnableLow u) (bs : List ByteSend) :
    capturesFrom u (initTrace bs) = (if u = none then [.maybe] else []) ++
      ((sendsAfterInit bs).map Send.latched).map .exact := by
  cases u with
  | some u => exact capturesFrom_sends (hu u rfl) _
  | none =>
    obtain ⟨es, hes⟩ := initTrace_eq_cons bs
    have hlow : enableOf (pack false false 0x30) = false := enableOf_pack ..
    have h := capturesFrom_sends hlow (sendsAfterInit bs)
    have hsame : capturesFrom none (initTrace bs) =
        .maybe :: capturesFrom (some (pack false false 0x30)) (initTrace bs) := by
      simp [hes, capturesFrom, captureAt]
    rw [hsame]
    exact congrArg (Capture.maybe :: ·) h

/-- The pairs of the nibbles of a list of bytes are the bytes. -/
theorem pairs_byteSends (bs : List ByteSend) :
    pairs ((bs.flatMap ByteSend.sends).map Send.latched) = bs.map ByteSend.transaction := by
  induction bs with
  | nil => rfl
  | cons x bs ih =>
    simp only [List.flatMap_cons, ByteSend.sends, List.cons_append, List.nil_append, List.map_cons,
      Send.latched, pairs, ih, hi_nibble, lo_nibble, nibbles_append, ByteSend.transaction, beq_self_eq_true]

/-- The nibbles of INIT and of the bytes after it group into the four singles and the bytes. -/
theorem transactions_sendsAfterInit (bs : List ByteSend) :
    transactions ((sendsAfterInit bs).map Send.latched) =
      some (initSingles ++ (initBytes ++ bs.map fun x => (x.rs, x.b)).map fun y => .byte y.1 y.2 true) := by
  have hpairs := pairs_byteSends (initCommands ++ bs)
  simp only [sendsAfterInit, List.map_append, rawSends, List.map_cons, List.cons_append,
    List.nil_append, transactions]
  rw [← List.map_append, hpairs]
  simp [initSingles, initBytes, initCommands, commandSend, ByteSend.transaction, Send.latched,
    Function.comp_def]

end Sys2Proof.Machine
end

section
/-! SUPPORT. Runs under a host of R194 (43_lcd_capture.md R194): what each of its inputs makes a block do
that INIT has initialized or is initializing. -/

open Sys2Proof.Certificates

namespace Sys2Proof.Machine

/-- INIT has completed, or is what the block executes. -/
def State.Serves (s : State) : Prop := s.initDone = true ∨ s.curOp = some .init

/-- A run that performs the events `done` and leaves `left` to the block and `rest` to the outside. -/
structure Progress (s t : State) (done left : List Event) (rest : List Input) : Prop where
  inv      : t.Inv
  serves   : t.Serves
  pending  : t.pending = left
  inputs   : t.inputs = rest
  cfg      : t.cfg = s.cfg
  out      : t.out = outAfter s.out done
  captures : t.captures = s.captures ++ capturesFrom s.out done

theorem Progress.trans {s u t : State} {a b left left' : List Event} {rest rest' : List Input}
    (h : Progress s u a left rest) (h' : Progress u t b left' rest') :
    Progress s t (a ++ b) left' rest' where
  inv := h'.inv
  serves := h'.serves
  pending := h'.pending
  inputs := h'.inputs
  cfg := h'.cfg.trans h.cfg
  out := by rw [h'.out, h.out, outAfter_append]
  captures := by rw [h'.captures, h.captures, h.out, capturesFrom_append, List.append_assoc]

/-- With nothing pending the block is idle, and initialized. -/
theorem Progress.idle {s t : State} {done : List Event} {rest : List Input}
    (h : Progress s t done [] rest) : t.busy = false ∧ t.initDone = true := by
  obtain ⟨hop, hpending⟩ := h.inv.busy
  have hbusy : t.busy = false := by simpa [h.pending] using hpending
  have hnone : t.curOp = none := by simpa [hbusy] using hop
  exact ⟨hbusy, h.serves.resolve_right (by simp [hnone])⟩

/-- Taking an input alone performs nothing. -/
theorem Progress.of_takeInput {s : State} (hinv : s.Inv) (hs : s.Serves) (rest : List Input) :
    Progress s (takeInput rest s) [] s.pending rest :=
  ⟨takeInput_inv rest hinv, hs, rfl, rfl, rfl, rfl, (List.append_nil _).symm⟩

/-- The completion of INIT initializes the block; every other event leaves it as it was. -/
theorem RunSays.progress {s t : State} {done left : List Event} (h : RunSays s t done left)
    (ht : t.Inv) (hs : s.Serves) : Progress s t done left s.inputs := by
  refine ⟨ht, ?_, h.pending, h.inputs, h.cfg, h.out, h.captures⟩
  by_cases hlast : done ≠ [] ∧ left = []
  · obtain ⟨-, -, hd⟩ := h.last hlast.1 hlast.2
    exact .inl (by simpa [State.Serves, hd] using hs)
  · obtain ⟨-, ho, hd⟩ := h.more (by tauto)
    rwa [State.Serves, ho, hd]

theorem IdleRun.progress {s t : State} {es : List Event} {rest : List Input} (h : IdleRun s t es rest) :
    Progress s t es [] rest :=
  ⟨h.inv, .inl h.initDone, by simpa [h.idle] using h.inv.busy.2, h.inputs, h.cfg, h.out, h.captures⟩

/-- The block works off what is pending while nothing, or an offer, stands on the port. -/
theorem runSteps_finishesPending {s : State} (hc : cfgWf s.cfg = true) (hinv : s.Inv) (hs : s.Serves)
    (hi : s.inputs = [] ∨ ∃ i rest, s.inputs = i :: rest ∧ isOffer i = true) :
    ∃ n t, runSteps n s = .next t ∧ Progress s t s.pending [] s.inputs := by
  have hrun : ∃ t, runSteps s.pending.length s = .next t ∧ RunSays s t s.pending [] := by
    obtain hi | ⟨i, rest, hi, ho⟩ := hi
    · exact runSteps_performs hc hinv.pins hi (List.append_nil _).symm
    · refine runSteps_performs_holdingOffer hc hinv.pins hi ho (fun hne => ?_) (List.append_nil _).symm
      rw [hinv.busy.2]
      simp [hne]
  obtain ⟨t, ht, hr⟩ := hrun
  exact ⟨_, t, ht, hr.progress (runSteps_inv hinv ht) hs⟩

/-- The bytes such an input makes an initialized block send, with the waits after each. -/
def inputByteSends (c : Cfg) : Input → List ByteSend
  | .submit w => (decode w).request?.elim [] (requestBytes c)
  | .printString text => (printed text).map fun b => ⟨true, b, []⟩
  | .blockTurn | .reset | .resetInside _ | .powerCycle => []

theorem inputBytes_eq_map (c : Cfg) (a : Input) :
    inputBytes c a = (inputByteSends c a).map fun x => (x.rs, x.b) := by
  cases a with
  | submit w =>
    cases hd : decode w with
    | request i => simp [inputBytes, inputByteSends, hd, Decoded.request?, bytesSent_eq_map]
    | illegal why => simp [inputBytes, inputByteSends, hd, Decoded.request?]
  | printString text => simp [inputBytes, inputByteSends, printed, Function.comp_def]
  | _ => rfl

/-- A request that an initialized block rejects has no bytes (60_exceptions.md R214, R215). -/
theorem requestBytes_of_not_passes {s : State} {i : Instr} (hc : cfgWf s.cfg = true)
    (hd : s.initDone = true) (hfails : ¬ passes s i) : requestBytes s.cfg i = [] := by
  cases i with
  | setCursor col row =>
    have hrow : s.cfg.rowOffset[row.toNat]? = none := by
      rw [Option.eq_none_iff_forall_ne_some]
      intro x hx
      exact hfails ⟨hd, (rowOffset_isSome hc _).mp ⟨x, hx⟩⟩
    simp [requestBytes, hrow]
  | sendByte rs b => exact absurd hd hfails
  | writeCommand b => exact absurd hd hfails
  | writeChar b => exact absurd hd hfails
  | commit v => rfl
  | sendNibble rs p => rfl
  | init => rfl

/-- What an idle initialized block has to do after a request other than COMMIT and SEND_NIBBLE: the bytes
of one it accepts, nothing for one it rejects (60_exceptions.md R213 to R215). -/
theorem submission_pending {s : State} {i : Instr} (hc : cfgWf s.cfg = true) (hb : s.busy = false)
    (hd : s.initDone = true) (hp : s.pending = []) (hi : byteRequest i = true ∨ i = .init) :
    (submission i s).pending = byteListEvents (requestBytes s.cfg i) := by
  obtain ⟨hb', -⟩ | ⟨-, c, hrej, hs⟩ | ⟨-, hacc, hs⟩ :=
    submitRequest_cases (opOf i) (expand s.cfg i) (rejection s i) s
  · simp [hb] at hb'
  · have hfails : ¬ passes s i := by simp [← rejection_eq_none, hrej]
    simp [submission, hs, hp, requestBytes_of_not_passes hc hd hfails]
  · have hbyte : byteRequest i = true := by
      refine hi.resolve_right ?_
      rintro rfl
      simp [rejection, onlyBeforeInit, hd] at hacc
    rw [submission, hs, accept_pending, expand_eq_byteListEvents _ hbyte]

/-- A word of such a host offered to an idle initialized block. -/
theorem step_submit_progress {s : State} {w : Word16} {rest : List Input} (hc : cfgWf s.cfg = true)
    (hinv : s.Inv) (hb : s.busy = false) (hd : s.initDone = true) (hi : s.inputs = .submit w :: rest)
    (hf : framerInput (.submit w) = true) :
    ∃ t, step s = .next t ∧ Progress s t [] (byteListEvents (inputByteSends s.cfg (.submit w))) rest := by
  have hp : s.pending = [] := by simpa [hb] using hinv.busy.2
  have hstep := step_submit hc ⟨hb, hi⟩
  cases hdec : decode w with
  | illegal why =>
    rw [submitWord_illegal hdec] at hstep
    refine ⟨_, hstep, (step_move hstep).inv hinv, .inl hd, ?_, rfl, rfl, rfl, (List.append_nil _).symm⟩
    simp [hp, inputByteSends, hdec, Decoded.request?]
  | request i =>
    have hreq : byteRequest i = true ∨ i = .init := by
      cases i with
      | commit v => simp [framerInput, hdec] at hf
      | sendNibble rs p => simp [framerInput, hdec] at hf
      | init => exact .inr rfl
      | _ => exact .inl rfl
    rw [submitWord_request hdec, exec_eq_submission i (s := takeInput rest s) hc] at hstep
    have hframe := Sys2Proof.Proofs.submissionFrame i (takeInput rest s) _ (exec_eq_submission i hc)
    have hpending := submission_pending (s := takeInput rest s) hc hb hd hp hreq
    refine ⟨_, hstep, (step_move hstep).inv hinv, .inl ?_, ?_, ?_, ?_, ?_, ?_⟩
    · rw [hframe]; exact hd
    · simpa [inputByteSends, hdec, Decoded.request?] using hpending
    · rw [hframe]; rfl
    · rw [hframe]; rfl
    · rw [hframe]; rfl
    · rw [hframe]; exact (List.append_nil _).symm

/-- One input of such a host, taken with what was pending before it: its bytes are performed or left to do. -/
theorem runSteps_takesInput {s : State} {a : Input} {rest : List Input} (hc : cfgWf s.cfg = true)
    (hinv : s.Inv) (hs : s.Serves) (hi : s.inputs = a :: rest) (hf : framerInput a = true) :
    ∃ n t done left, runSteps n s = .next t ∧ Progress s t done left rest ∧
      done ++ left = s.pending ++ byteListEvents (inputByteSends s.cfg a) := by
  have hoffer : isOffer a = true →
      ∃ n t, runSteps n s = .next t ∧ Progress s t s.pending [] (a :: rest) := fun ho =>
    hi ▸ runSteps_finishesPending hc hinv hs (.inr ⟨a, rest, hi, ho⟩)
  cases a with
  | submit w =>
    obtain ⟨n, u, hn, hu⟩ := hoffer rfl
    obtain ⟨hb, hd⟩ := hu.idle
    obtain ⟨t, hstep, ht⟩ := step_submit_progress (hu.cfg ▸ hc) hu.inv hb hd hu.inputs hf
    exact ⟨n + 1, t, _, _, (runSteps_add 1 hn).trans (runSteps_succ 0 hstep), hu.trans ht,
      by rw [hu.cfg, List.append_nil]⟩
  | printString text =>
    obtain ⟨n, u, hn, hu⟩ := hoffer rfl
    obtain ⟨hb, hd⟩ := hu.idle
    obtain ⟨m, t, hm, ht⟩ := runSteps_printString_afterInit (hu.cfg ▸ hc) hu.inv hb hd hu.inputs
    refine ⟨n + m, t, _, _, (runSteps_add m hn).trans hm, hu.trans ht.progress, ?_⟩
    rw [inputByteSends, byteListEvents_chars, List.append_nil]
  | blockTurn =>
    have htake := Progress.of_takeInput hinv hs rest
    have hstep : step s = .next (blockStep (takeInput rest s)) := by
      simp [step_eq_agentTurn hc, agentTurn, hi]
    have hrun := runSteps_succ 0 hstep
    rcases hp : s.pending with _ | ⟨e, left⟩
    · rw [blockStep_idle (s := takeInput rest s) hp] at hrun
      exact ⟨1, _, _, _, hrun, htake, by simp [hp, inputByteSends]⟩
    · have hsays := blockStep_says (s := takeInput rest s) hp hinv.pins
      have hblock : RunSays (takeInput rest s) (blockStep (takeInput rest s)) [e] left :=
        .cons hsays (by simpa [hsays.pending] using RunSays.refl hsays.pins)
      exact ⟨1, _, _, _, hrun, htake.trans (hblock.progress (blockStep_inv htake.inv) htake.serves),
        by simp [inputByteSends]⟩
  | reset => cases hf
  | resetInside k => cases hf
  | powerCycle => cases hf

/-- The run comes to rest after what was pending and the bytes of every input, in order. -/
theorem runSteps_drains {acts : List Input} {s : State} (hc : cfgWf s.cfg = true) (hinv : s.Inv)
    (hs : s.Serves) (hi : s.inputs = acts) (hf : ∀ a ∈ acts, framerInput a = true) :
    ∃ n t, runSteps n s = .next t ∧
      Progress s t (s.pending ++ byteListEvents (acts.flatMap (inputByteSends s.cfg))) [] [] := by
  induction acts generalizing s with
  | nil =>
    obtain ⟨n, t, hn, ht⟩ := runSteps_finishesPending hc hinv hs (.inl hi)
    exact ⟨n, t, hn, by simpa [hi] using ht⟩
  | cons a acts ih =>
    obtain ⟨ha, hacts⟩ := List.forall_mem_cons.mp hf
    obtain ⟨n, u, done, left, hn, hu, hevents⟩ := runSteps_takesInput hc hinv hs hi ha
    obtain ⟨m, t, hm, ht⟩ := ih (hu.cfg ▸ hc) hu.inv hu.serves hu.inputs hacts
    refine ⟨n + m, t, (runSteps_add m hn).trans hm, ?_⟩
    rw [List.flatMap_cons, byteListEvents_append, ← List.append_assoc, ← hevents, List.append_assoc]
    rw [hu.pending, hu.cfg] at ht
    exact hu.trans ht

end Sys2Proof.Machine
end

section
/-! SUPPORT. A legal timing of sends, nibble by nibble, and what it makes of the Enable pulses, the Enable
edges and the gaps between captures (43_lcd_capture.md R195, R196). -/

namespace Sys2Proof.Machine

/-- How long each event of a nibble took. -/
structure NibbleTimes where
  setup   : Rat
  rise    : Rat
  high    : Rat
  capture : Rat
  settle  : Rat

/-- The timing of a nibble. -/
def NibbleTimes.timed (n : NibbleTimes) (rs : Bool) (p : Byte) : Timed :=
  [(.commit (pack rs false p), n.setup), (.commit (pack rs true p), n.rise), (.wait .enHigh, n.high),
   (.commit (pack rs false p), n.capture), (.wait .nibble, n.settle)]

/-- Each event took at least its lower bound (10_state.md R33, R36). -/
structure NibbleTimes.Legal (c : Cfg) (n : NibbleTimes) : Prop where
  setup   : commitTime c ≤ n.setup
  rise    : commitTime c ≤ n.rise
  high    : c.tEnHigh ≤ n.high
  capture : commitTime c ≤ n.capture
  settle  : c.tNibble ≤ n.settle

theorem eq_timed_of_legal {c : Cfg} {rs : Bool} {p : Byte} {tt : Timed}
    (ht : eventsOf tt = nibbleEvents rs p) (hl : legalTiming c tt) :
    ∃ n : NibbleTimes, n.Legal c ∧ tt = n.timed rs p := by
  simp only [nibbleEvents, eventsOf_eq_cons, eventsOf_eq_nil] at ht
  obtain ⟨setup, _, rfl, rise, _, rfl, high, _, rfl, capture, _, rfl, settle, _, rfl, rfl⟩ := ht
  simp only [legalTiming_cons] at hl
  obtain ⟨hsetup, hrise, hhigh, hcapture, hsettle, -⟩ := hl
  exact ⟨⟨setup, rise, high, capture, settle⟩, ⟨hsetup, hrise, hhigh, hcapture, hsettle⟩, rfl⟩

/-- A legal timing of a list of sends. -/
inductive LegalSends (c : Cfg) : List Send → Timed → Prop where
  | nil : LegalSends c [] []
  | cons {x : Send} {xs : List Send} {n : NibbleTimes} {ws tt : Timed} (hn : n.Legal c)
      (hw : eventsOf ws = x.after.map .wait) (hl : legalTiming c ws) (h : LegalSends c xs tt) :
      LegalSends c (x :: xs) (n.timed x.rs x.p ++ (ws ++ tt))

theorem legalSends_of_legal {c : Cfg} {xs : List Send} {tt : Timed}
    (ht : eventsOf tt = xs.flatMap Send.events) (hl : legalTiming c tt) : LegalSends c xs tt := by
  induction xs generalizing tt with
  | nil =>
    obtain rfl := eventsOf_eq_nil.mp ht
    exact .nil
  | cons x xs ih =>
    rw [List.flatMap_cons, Send.events, List.append_assoc] at ht
    obtain ⟨tn, _, rfl, hnibble, ht⟩ := eventsOf_eq_append ht
    obtain ⟨ws, tr, rfl, hw, hrest⟩ := eventsOf_eq_append ht
    obtain ⟨hln, hl⟩ := legalTiming_append.mp hl
    obtain ⟨hlw, hlr⟩ := legalTiming_append.mp hl
    obtain ⟨n, hn, rfl⟩ := eq_timed_of_legal hnibble hln
    exact .cons hn hw hlw (ih hrest hlr)

/-- What only adds up the time of a wait adds up that of a list of waits. -/
theorem fold_waits {α : Type} {f : Rat → Timed → α}
    (hf : ∀ a p d tt, f a ((.wait p, d) :: tt) = f (a + d) tt) {ps : List Delay} {ws : Timed}
    (hw : eventsOf ws = ps.map .wait) (a : Rat) (tt : Timed) :
    f a (ws ++ tt) = f (a + elapsed ws) tt := by
  induction ps generalizing ws a with
  | nil =>
    obtain rfl := eventsOf_eq_nil.mp hw
    simp [elapsed]
  | cons p ps ih =>
    obtain ⟨d, ws, rfl, hws⟩ := eventsOf_eq_cons.mp hw
    rw [List.cons_append, hf, ih hws]
    simp [elapsed, add_assoc]

/-! ## Lower bounds -/

theorem minTime_nonneg {c : Cfg} (hc : cfgWf c = true) (e : Event) : 0 ≤ minTime c e := by
  cases e with
  | commit v => exact (commitTime_pos hc).le
  | wait p =>
    obtain ⟨-, -, -, hdelay⟩ := cfgWf_iff.mp hc
    exact (delayOf_pos (hdelay p)).le

theorem leastTime_nonneg {c : Cfg} (hc : cfgWf c = true) (es : List Event) : 0 ≤ leastTime c es :=
  List.sum_nonneg (List.forall_mem_map.mpr fun e _ => minTime_nonneg hc e)

theorem leastTime_cons (c : Cfg) (e : Event) (es : List Event) :
    leastTime c (e :: es) = minTime c e + leastTime c es := List.sum_cons

/-- The least time from the capture of a send to the next commit. -/
def Send.settle (c : Cfg) (x : Send) : Rat := c.tNibble + leastTime c (x.after.map .wait)

theorem tNibble_le_settle {c : Cfg} (hc : cfgWf c = true) (x : Send) : c.tNibble ≤ x.settle c :=
  le_add_of_nonneg_right (leastTime_nonneg hc _)

/-! ## One nibble from Enable low -/

section
variable {u : Byte} (n : NibbleTimes) (rs : Bool) (p : Byte) (tt : Timed)

theorem pulsesFrom_timed (hu : enableOf u = false) (sofar : Rat) :
    pulsesFrom (some u) sofar (n.timed rs p ++ tt) =
      (n.high + n.capture) :: pulsesFrom (some (pack rs false p)) n.settle tt := by
  simp [NibbleTimes.timed, pulsesFrom, hu]

/-- How long RS and the data lines have been unchanged when the Setup packet is out. -/
def heldAfterSetup (u : Byte) (held : Rat) (n : NibbleTimes) (rs : Bool) (p : Byte) : Rat :=
  if sameData u (pack rs false p) then held + n.setup else 0

/-- The two edges of a nibble find its data on the lines since the Setup packet. -/
theorem edgesFrom_timed (hu : enableOf u = false) (held : Rat) :
    edgesFrom (some u) held (n.timed rs p ++ tt) =
      (heldAfterSetup u held n rs p + n.rise) ::
      (heldAfterSetup u held n rs p + n.rise + n.high + n.capture) ::
      edgesFrom (some (pack rs false p))
        (heldAfterSetup u held n rs p + n.rise + n.high + n.capture + n.settle) tt := by
  simp [NibbleTimes.timed, edgesFrom, hu, heldAfterSetup]

theorem gapsFrom_timed (hu : enableOf u = false) (last : Option (Capture × Rat)) :
    gapsFrom (some u) last (n.timed rs p ++ tt) =
      (last.map fun k => (k.1, some k.2)).toList ++
      gapsFrom (some (pack rs false p)) (some (.exact ⟨rs, (p >>> 4).setWidth 4⟩, n.settle)) tt := by
  have hsetup : captureAt (some u) (some (pack rs false p)) = none :=
    captureAt_eq_none.mpr (.inl hu)
  have hrise : captureAt (some (pack rs false p)) (some (pack rs true p)) = none :=
    captureAt_eq_none.mpr (.inl (enableOf_pack ..))
  simp [NibbleTimes.timed, gapsFrom, hsetup, hrise, captureAt_pack_falling]

end

/-! ## A list of sends from Enable low -/

section
variable {c : Cfg} {xs : List Send} {tt : Timed} (hc : cfgWf c = true) (h : LegalSends c xs tt)
include hc h

/-- Every pulse lasts T_EN_HIGH and one commit (43_lcd_capture.md R195(a)). -/
theorem LegalSends.pulses {u : Byte} (hu : enableOf u = false) (sofar : Rat) :
    ∀ w ∈ pulsesFrom (some u) sofar tt, 450 ≤ w := by
  induction h generalizing u sofar with
  | nil => simp [pulsesFrom]
  | @cons x xs n ws tt hn hw hl h ih =>
    rw [pulsesFrom_timed _ _ _ _ hu,
      fold_waits (f := pulsesFrom (some (pack x.rs false x.p))) (fun _ _ _ _ => rfl) hw]
    refine List.forall_mem_cons.mpr ⟨?_, ih (enableOf_pack ..) _⟩
    linarith [enHigh_floor hc, commitTime_pos hc, hn.high, hn.capture]

/-- RS and data are stable for a commit before every edge (43_lcd_capture.md R195(f)). -/
theorem LegalSends.edges {u : Byte} (hu : enableOf u = false) {held : Rat} (hheld : 0 ≤ held) :
    ∀ e ∈ edgesFrom (some u) held tt, commitTime c ≤ e := by
  induction h generalizing u held with
  | nil => simp [edgesFrom]
  | @cons x xs n ws tt hn hw hl h ih =>
    have hcommit := commitTime_pos hc
    have henable := enHigh_floor hc
    have hnibble : 0 ≤ c.tNibble := minTime_nonneg hc (.wait .nibble)
    have hwaits : 0 ≤ elapsed ws := (leastTime_nonneg hc _).trans (leastTime_le_elapsed c ws hl)
    obtain ⟨hsetup, hrise, hhigh, hcapture, hsettle⟩ := hn
    have hnow : 0 ≤ heldAfterSetup u held n x.rs x.p := by
      unfold heldAfterSetup
      split <;> linarith
    rw [edgesFrom_timed _ _ _ _ hu,
      fold_waits (f := edgesFrom (some (pack x.rs false x.p))) (fun _ _ _ _ => rfl) hw]
    refine List.forall_mem_cons.mpr ⟨?_, List.forall_mem_cons.mpr ⟨?_, ih (enableOf_pack ..) ?_⟩⟩
    · linarith
    · linarith
    · linarith

end

/-- The captures of a list of sends, each with a gap no shorter than its settle; the last has none. -/
inductive SettledCaptures (c : Cfg) : List Send → List (Capture × Option Rat) → Prop where
  | nil : SettledCaptures c [] []
  | cons {x : Send} {xs : List Send} {g : Option Rat} {ks : List (Capture × Option Rat)}
      (hgap : gapAtLeast (x.settle c) g) (hlast : xs = [] → g = none) (h : SettledCaptures c xs ks) :
      SettledCaptures c (x :: xs) ((.exact x.latched, g) :: ks)

/-- The gaps of a list of sends; the capture before them, if there is one, has its gap where a send follows. -/
theorem LegalSends.gaps {c : Cfg} {xs : List Send} {tt : Timed} (h : LegalSends c xs tt) {u : Byte}
    (hu : enableOf u = false) (last : Option (Capture × Rat)) :
    ∃ ks, SettledCaptures c xs ks ∧ gapsFrom (some u) last tt =
      (last.map fun k => (k.1, if xs = [] then none else some k.2)).toList ++ ks := by
  induction h generalizing u last with
  | nil => exact ⟨[], .nil, by simp [gapsFrom]⟩
  | @cons x xs n ws tt hn hw hl h ih =>
    have hsettle : x.settle c ≤ n.settle + elapsed ws := by
      rw [Send.settle, ← hw]
      exact add_le_add hn.settle (leastTime_le_elapsed c ws hl)
    obtain ⟨ks, hks, hgaps⟩ :=
      ih (enableOf_pack x.rs false x.p) (some (.exact x.latched, n.settle + elapsed ws))
    refine ⟨_, .cons (g := if xs = [] then none else some (n.settle + elapsed ws)) ?_ ?_ hks, ?_⟩
    · intro t ht
      split at ht
      · cases ht
      · cases ht
        exact hsettle
    · exact fun hnil => if_pos hnil
    · rw [gapsFrom_timed _ _ _ _ hu,
        fold_waits (f := fun a => gapsFrom (some (pack x.rs false x.p)) (some (_, a)))
          (fun _ _ _ _ => rfl) hw]
      exact congrArg (_ ++ ·) hgaps

/-! ## From unknown outputs (43_lcd_capture.md R193; log 24) -/

/-- A capture that may be there is set aside with its gap. -/
theorem filter_gapsFrom_maybe (u : Option Byte) (a : Rat) (tt : Timed) :
    (gapsFrom u (some (.maybe, a)) tt).filter (fun k => k.1 ≠ .maybe) =
      (gapsFrom u none tt).filter fun k => k.1 ≠ .maybe := by
  induction tt generalizing a with
  | nil => rfl
  | cons x tt ih =>
    obtain ⟨e, d⟩ := x
    cases e with
    | wait p => exact ih (a + d)
    | commit v => simp [gapsFrom]

/-- Before a commit that leaves Enable low, unknown outputs are as good as known ones with Enable low and
another register select: the commit makes no edge, and the data are fresh. -/
theorem exists_known_alike {u : Option Byte} (hu : EnableLow u) {p : Delay} {v : Byte} {es : List Event}
    {tt : Timed} (hv : enableOf v = false) (ht : eventsOf tt = .wait p :: .commit v :: es) :
    ∃ w, enableOf w = false ∧ pulsesFrom u 0 tt = pulsesFrom (some w) 0 tt ∧
      edgesFrom u 0 tt = edgesFrom (some w) 0 tt ∧ certainGaps u tt = gapsFrom (some w) none tt := by
  cases u with
  | some w => exact ⟨w, hu w rfl, rfl, rfl, certainGaps_some w tt⟩
  | none =>
    have hw : enableOf (pack (!rsOf v) false v) = false := enableOf_pack ..
    have hfresh : sameData (pack (!rsOf v) false v) v = false := by simp [sameData]
    have hnone : captureAt (some (pack (!rsOf v) false v)) (some v) = none :=
      captureAt_eq_none.mpr (.inl hw)
    obtain ⟨d, _, rfl, hcommit⟩ := eventsOf_eq_cons.mp ht
    obtain ⟨d', tt, rfl, -⟩ := eventsOf_eq_cons.mp hcommit
    refine ⟨_, hw, ?_, ?_, ?_⟩
    · simp [pulsesFrom, hw]
    · simp [edgesFrom, hv, hw, hfresh]
    · rw [← certainGaps_some]
      simpa [certainGaps, gapsFrom, captureAt, hv, hnone] using filter_gapsFrom_maybe (some v) 0 tt

end Sys2Proof.Machine
end

section
/-! SUPPORT. The obligations (a) to (f) of 43_lcd_capture.md R195 in a legal timing of INIT and the bytes after
it, and what the LCD then reads (R197). -/

namespace Sys2Proof.Machine

theorem gapAtLeast_mono {a b : Rat} {g : Option Rat} (hab : a ≤ b) (h : gapAtLeast b g) :
    gapAtLeast a g := fun t ht => hab.trans (h t ht)

/-! ## The captures of sends, by their gaps -/

theorem SettledCaptures.nibbleSettle {c : Cfg} (hc : cfgWf c = true) {xs : List Send}
    {ks : List (Capture × Option Rat)} (h : SettledCaptures c xs ks) :
    ∀ k ∈ ks, gapAtLeast c.tNibble k.2 := by
  induction h with
  | nil => simp
  | @cons x xs g ks hgap hlast h ih =>
    exact List.forall_mem_cons.mpr ⟨gapAtLeast_mono (tNibble_le_settle hc x) hgap, ih⟩

/-- The captures of INIT's raw sends and those of the commands and bytes after them. -/
theorem SettledCaptures.afterInit {c : Cfg} {bs : List ByteSend} {ks : List (Capture × Option Rat)}
    (h : SettledCaptures c (sendsAfterInit bs) ks) :
    SettledCaptures c ((initCommands ++ bs).flatMap ByteSend.sends) (ks.drop 4) ∧
    ∀ k1 g1 k2 g2 more, ks = (k1, g1) :: (k2, g2) :: more →
      gapAtLeast (c.tNibble + c.tReset1) g1 ∧ gapAtLeast (c.tNibble + c.tReset2) g2 := by
  obtain _ | ⟨hgap1, -, _ | ⟨hgap2, -, _ | ⟨-, -, _ | ⟨-, -, h⟩⟩⟩⟩ := h
  refine ⟨h, ?_⟩
  rintro _ _ _ _ _ ⟨⟩
  simp only [Send.settle, List.map_cons, List.map_nil, leastTime, List.sum_cons, List.sum_nil, add_zero]
    at hgap1 hgap2
  exact ⟨hgap1, hgap2⟩

/-! ## The long delay -/

/-- The least time from the second capture of a byte to the next commit. -/
def ByteSend.settle (c : Cfg) (x : ByteSend) : Rat :=
  c.tNibble + leastTime c (.wait .byte :: x.after.map .wait)

/-- After every command 0x01 or 0x02 but a last one the waits are at least 1.52 ms. -/
def LongBytesKept (c : Cfg) : List ByteSend → Prop
  | [] => True
  | x :: rest =>
    (x.rs = false → isLong x.b = true → rest ≠ [] → 1520000 ≤ x.settle c) ∧ LongBytesKept c rest

/-- The two captures of a byte are a long command exactly when the byte is one. -/
theorem isLongCommand_byte (rs : Bool) (b : Byte) :
    isLongCommand (.exact ⟨rs, ((hi b) >>> 4).setWidth 4⟩) (.exact ⟨rs, ((lo b) >>> 4).setWidth 4⟩) =
      (!rs && isLong b) := by
  simp [isLongCommand, hi_nibble, lo_nibble, nibbles_append]

theorem longGapsMet_of_kept {c : Cfg} {bs : List ByteSend} {ks : List (Capture × Option Rat)}
    (h : SettledCaptures c (bs.flatMap ByteSend.sends) ks) (hk : LongBytesKept c bs) : longGapsMet ks := by
  induction bs generalizing ks with
  | nil =>
    cases h
    trivial
  | cons x bs ih =>
    obtain ⟨hlong, hk⟩ := hk
    obtain _ | ⟨-, -, _ | ⟨hgap, hlast, h⟩⟩ := h
    refine ⟨fun hcommand => ?_, ih h hk⟩
    rw [Send.latched, Send.latched, isLongCommand_byte, Bool.and_eq_true, Bool.not_eq_true'] at hcommand
    by_cases hbs : bs = []
    · rw [hlast (by simp [hbs])]
      rintro t ⟨⟩
    · exact gapAtLeast_mono (hlong hcommand.1 hcommand.2 hbs) hgap

/-- The long delay of the class is long enough (42_lcd_commands.md R155). -/
theorem settle_commandSend {c : Cfg} (hc : cfgWf c = true) {b : Byte} (hb : isLong b = true) :
    1520000 ≤ (commandSend b).settle c := by
  have h := (longCommandDelay_floor hc).le
  rw [← leastTime_longWaits, leastTime_cons] at h
  rwa [ByteSend.settle, commandSend, if_pos hb]

/-- A command never lacks its delay. -/
theorem longBytesKept_cons_commandSend {c : Cfg} (hc : cfgWf c = true) (b : Byte) {bs : List ByteSend}
    (h : LongBytesKept c bs) : LongBytesKept c (commandSend b :: bs) :=
  ⟨fun _ hl _ => settle_commandSend hc hl, h⟩

theorem longBytesKept_initCommands {c : Cfg} (hc : cfgWf c = true) {bs : List ByteSend}
    (h : LongBytesKept c bs) : LongBytesKept c (initCommands ++ bs) :=
  longBytesKept_cons_commandSend hc _ <| longBytesKept_cons_commandSend hc _ <|
    longBytesKept_cons_commandSend hc _ <| longBytesKept_cons_commandSend hc _ h

theorem byteListEvents_eq_nil {bs : List ByteSend} : byteListEvents bs = [] ↔ bs = [] := by
  cases bs with
  | nil => simp
  | cons x bs => simp [byteListEvents, ByteSend.sends, Send.events, nibbleEvents]

/-- A request adds at most one byte. Of the long commands only SEND_BYTE's can lack the long delay. -/
theorem longBytesKept_requestBytes {c : Cfg} (hc : cfgWf c = true) {i : Instr} {bs : List ByteSend}
    (hi : sendsLongWithoutDelay c i = true → bs = []) (h : LongBytesKept c bs) :
    LongBytesKept c (requestBytes c i ++ bs) := by
  cases i with
  | sendByte rs b =>
    refine ⟨fun hrs hl hne => ?_, h⟩
    have hdelay : ¬ c.tNibble + c.tByte < 1520000 := fun hlt =>
      hne (hi (by simp [sendsLongWithoutDelay, show rs = false from hrs, show isLong b = true from hl, hlt]))
    simpa [ByteSend.settle, leastTime, minTime, delayOf] using hdelay
  | writeCommand b => exact longBytesKept_cons_commandSend hc b h
  | writeChar b => exact ⟨fun hrs => absurd hrs (by simp), h⟩
  | setCursor col row =>
    cases ho : c.rowOffset[row.toNat]? with
    | none => simpa [requestBytes, ho] using h
    | some offset => simpa [requestBytes, ho] using longBytesKept_cons_commandSend hc _ h
  | commit v => exact h
  | sendNibble rs p => exact h
  | init => exact h

theorem longBytesKept_of_longDelayKept {c : Cfg} (hc : cfgWf c = true) {reqs : List Instr}
    (hr : ∀ i ∈ reqs, byteRequest i = true) (hk : longDelayKept c reqs = true) :
    LongBytesKept c (reqs.flatMap (requestBytes c)) := by
  induction reqs with
  | nil => trivial
  | cons i reqs ih =>
    obtain ⟨-, hreqs⟩ := List.forall_mem_cons.mp hr
    rw [longDelayKept, flatMap_expand_eq_byteListEvents c hreqs, Bool.and_eq_true] at hk
    obtain ⟨hi, hk⟩ := hk
    refine longBytesKept_requestBytes hc (fun hsends => ?_) (ih hreqs hk)
    simpa [hsends, byteListEvents_eq_nil] using hi

/-! ## The whole trace -/

section
variable {c : Cfg} {u : Option Byte} {bs : List ByteSend} {tt : Timed} (hc : cfgWf c = true)
  (hu : EnableLow u) (ht : eventsOf tt = initTrace bs) (hl : legalTiming c tt)
include ht hl

/-- A timing of the trace: the power-on wait, then the sends. -/
theorem initTrace_timing :
    ∃ d ts, tt = (.wait .powerOn, d) :: ts ∧ c.tPowerOn ≤ d ∧ LegalSends c (sendsAfterInit bs) ts := by
  obtain ⟨d, ts, rfl, hts⟩ := eventsOf_eq_cons.mp ht
  obtain ⟨hd, hl⟩ := legalTiming_cons.mp hl
  exact ⟨d, ts, rfl, hd, legalSends_of_legal hts hl⟩

include hu

/-- The certain captures of the trace with their gaps. -/
theorem initTrace_gaps :
    SettledCaptures c (sendsAfterInit bs) (certainGaps u tt) := by
  obtain ⟨es, hes⟩ := initTrace_eq_cons bs
  obtain ⟨w, hw, -, -, hgaps⟩ := exists_known_alike hu (enableOf_pack ..) (ht.trans hes)
  obtain ⟨d, ts, rfl, -, hsends⟩ := initTrace_timing ht hl
  obtain ⟨ks, hks, h⟩ := hsends.gaps hw none
  rw [hgaps]
  exact h ▸ hks

include hc

theorem initTrace_pulseWidthMet : PulseWidthMet u tt := by
  obtain ⟨es, hes⟩ := initTrace_eq_cons bs
  obtain ⟨w, hw, hpulses, -, -⟩ := exists_known_alike hu (enableOf_pack ..) (ht.trans hes)
  obtain ⟨d, ts, rfl, -, hsends⟩ := initTrace_timing ht hl
  rw [PulseWidthMet, hpulses]
  exact hsends.pulses hc hw _

theorem initTrace_dataStableMet : DataStableMet c u tt := by
  obtain ⟨es, hes⟩ := initTrace_eq_cons bs
  obtain ⟨w, hw, -, hedges, -⟩ := exists_known_alike hu (enableOf_pack ..) (ht.trans hes)
  obtain ⟨d, ts, rfl, hd, hsends⟩ := initTrace_timing ht hl
  have hpowerOn : 0 ≤ c.tPowerOn := minTime_nonneg hc (.wait .powerOn)
  rw [DataStableMet, hedges]
  exact hsends.edges hc hw (add_nonneg le_rfl (hpowerOn.trans hd))

omit hu in
theorem initTrace_powerOnMet : PowerOnMet tt := by
  obtain ⟨d, ts, rfl, hd, hsends⟩ := initTrace_timing ht hl
  obtain ⟨-, -, -, hdelay⟩ := cfgWf_iff.mp hc
  have hfloor : 40000000 ≤ c.tPowerOn := delayOk_iff.mp (hdelay .powerOn)
  cases hsends
  rw [PowerOnMet, leadIn]
  exact hfloor.trans (hd.trans (add_zero d).ge)

theorem initTrace_nibbleSettleMet : NibbleSettleMet c u tt :=
  (initTrace_gaps hu ht hl).nibbleSettle hc

theorem initTrace_resetGapsMet : ResetGapsMet u tt := by
  obtain ⟨-, -, -, hdelay⟩ := cfgWf_iff.mp hc
  have hnibble : 0 < c.tNibble := delayOf_pos (hdelay .nibble)
  have hreset1 : 5000000 ≤ c.tReset1 := delayOk_iff.mp (hdelay .reset1)
  have hreset2 : 100000 ≤ c.tReset2 := delayOk_iff.mp (hdelay .reset2)
  intro k1 g1 k2 g2 more hks
  obtain ⟨hg1, hg2⟩ := (initTrace_gaps hu ht hl).afterInit.2 k1 g1 k2 g2 more hks
  exact ⟨gapAtLeast_mono (by linarith) hg1, gapAtLeast_mono (by linarith) hg2⟩

theorem initTrace_longDelayMet (hk : LongBytesKept c bs) : LongDelayMet u tt :=
  longGapsMet_of_kept (initTrace_gaps hu ht hl).afterInit.1 (longBytesKept_initCommands hc hk)

theorem initTrace_obligationsMet (hk : LongBytesKept c bs) : ObligationsMet c u tt where
  pulse := initTrace_pulseWidthMet hc hu ht hl
  settle := initTrace_nibbleSettleMet hc hu ht hl
  long := initTrace_longDelayMet hc hu ht hl hk
  powerOn := initTrace_powerOnMet hc ht hl
  resetGaps := initTrace_resetGapsMet hc hu ht hl
  stable := initTrace_dataStableMet hc hu ht hl

end

/-! ## What the LCD reads -/

/-- Exact captures stand for the nibbles they name and no others. -/
theorem admits_exact {ls cs : List Latched} : admits (ls.map .exact) cs = true ↔ cs = ls := by
  induction ls generalizing cs with
  | nil => simp [admits]
  | cons l ls ih =>
    cases cs with
    | nil => simp [admits]
    | cons d ds => simp [admits, ih, eq_comm (a := d)]

theorem certainCaptures_initTrace {u : Option Byte} (hu : EnableLow u) (bs : List ByteSend) :
    certainCaptures u (initTrace bs) = ((sendsAfterInit bs).map Send.latched).map .exact := by
  rw [certainCaptures, capturesFrom_initTrace hu, List.filter_append]
  have hmaybe : (if u = none then [Capture.maybe] else []).filter (· ≠ .maybe) = [] := by
    split <;> rfl
  rw [hmaybe, List.nil_append]
  exact List.filter_eq_self.mpr (List.forall_mem_map.mpr fun l _ => by simp)

/-- Where every obligation is met, the LCD reads the sends and nothing else. -/
theorem lcdReads_initTrace {c : Cfg} {u : Option Byte} {bs : List ByteSend} {tt : Timed}
    (hu : EnableLow u) (ht : eventsOf tt = initTrace bs) (hmet : ObligationsMet c u tt)
    (ts : List Transaction) :
    LcdReads c u tt ts ↔ transactions ((sendsAfterInit bs).map Send.latched) = some ts := by
  rw [LcdReads, ht, certainCaptures_initTrace hu]
  simp only [admits_exact, exists_eq_left, and_iff_right hmet]

end Sys2Proof.Machine
end

section
/-! SUPPORT. The statements of 43_lcd_capture.md, settled. -/

open Sys2Proof Sys2Proof.Machine Sys2Proof.Certificates

namespace Sys2Proof.Proofs

/-- Settles O40: INIT is accepted, the run works off its events and then the bytes of each input, and the
captures of that trace are its nibbles. -/
theorem framerTransportLaw : Obligations.FramerTransportLaw := by
  intro s acts hc hinv hd ho hlow hf
  have hword : decode 0x7000 = .request .init := by decide
  have hstep : step s = .next (accept .init expandInit (takeInput acts s)) := by
    rw [step_submit hc ho, submitWord_request hword, exec_eq_submission (s := takeInput acts s) _ hc,
      submission_accepts (s := takeInput acts s) (i := .init) ho.1 hd]
    rfl
  obtain ⟨n, t, hn, ht⟩ := runSteps_drains (acts := acts)
    (s := accept .init expandInit (takeInput acts s)) hc ((step_move hstep).inv hinv) (.inr rfl) rfl hf
  have hcaptures := ht.captures
  simp only [accept_pending, accept_captures, accept_out, accept_cfg, takeInput_captures, takeInput_out,
    takeInput_cfg, expandInit_append_byteListEvents, capturesFrom_initTrace hlow, ← List.append_assoc]
    at hcaptures
  refine ⟨n + 1, t, _, (runSteps_succ n hstep).trans hn, ⟨ht.idle.1, ht.pending, ht.inputs⟩,
    hcaptures, ?_⟩
  rw [transactions_sendsAfterInit, List.map_flatMap, funext (inputBytes_eq_map s.cfg)]

/-- Settles O37, with Enable, RS and the data lines read as masks. -/
theorem captureRule : Obligations.CaptureRule := by
  refine ⟨fun v => ?_, fun u v => ?_⟩
  · simp [captureAt, enableOf_eq_mask]
  · simp [captureAt, enableOf_eq_mask, sameData_eq_mask, rsOf_eq_mask, nibOf_eq_shift]

/-- Settles O57: INIT and byte requests are sends, each a pulse, two edges and a capture within bounds. -/
theorem tracesMeetTheTimingObligations : Obligations.TracesMeetTheTimingObligations := by
  intro c u reqs tt hc hu hr ht hl
  rw [trace_eq_initTrace c hr] at ht
  exact ⟨initTrace_pulseWidthMet hc hu ht hl, initTrace_powerOnMet hc ht hl,
    initTrace_resetGapsMet hc hu ht hl, initTrace_dataStableMet hc hu ht hl,
    fun hk => initTrace_longDelayMet hc hu ht hl (longBytesKept_of_longDelayKept hc hr hk)⟩

/-- Settles O58: the gap of every send holds its settle. -/
theorem everyCaptureHasItsNibbleSettle : Obligations.EveryCaptureHasItsNibbleSettle := by
  intro c u reqs tt hc hu hr ht hl
  rw [trace_eq_initTrace c hr] at ht
  exact initTrace_nibbleSettleMet hc hu ht hl

/-- Settles O59: every obligation is met, and the nibbles read are those of the sends. -/
theorem lcdReadsTheBytesSent : Obligations.LcdReadsTheBytesSent := by
  intro c u reqs tt hc hu hr hk ht hl ts
  rw [trace_eq_initTrace c hr] at ht
  have hmet := initTrace_obligationsMet hc hu ht hl (longBytesKept_of_longDelayKept hc hr hk)
  rw [lcdReads_initTrace hu ht hmet, transactions_sendsAfterInit, List.map_flatMap,
    funext (bytesSent_eq_map c), Option.some_inj]
  exact eq_comm

end Sys2Proof.Proofs
end

section
/-! SUPPORT. What an idle block answers a word with, and that a rejection writes ERR only (60_exceptions.md
R211 to R217). -/

open Sys2Proof.Certificates

namespace Sys2Proof.Machine

section
variable {s : State} {i : Instr} (hc : cfgWf s.cfg = true) (hb : s.busy = false)
include hc hb

/-- A request with a code is rejected, and only ERR is written (60_exceptions.md R211). -/
theorem exec_rejects {c : ResultCode} (hr : rejection s i = some c) :
    exec i s = .next (setErr s c) := by
  rw [exec_eq_submission i hc, submission, hr, submitRequest_rejects _ _ _ hb, reject_eq_setErr]

theorem exec_accepts (hp : passes s i) :
    exec i s = .next (accept (opOf i) (expand s.cfg i) s) := by
  rw [exec_eq_submission i hc, submission_accepts hb hp]

end

/-- While BUSY a submission is held and writes nothing (60_exceptions.md R216). -/
theorem exec_holds (i : Instr) {s : State} (hc : cfgWf s.cfg = true) (hb : s.busy = true) :
    exec i s = .next s := by
  rw [exec_eq_submission i hc, submission, submitRequest_busy _ _ _ hb]

/-- Before INIT a gated request has the gate's code. -/
theorem needsInit_beforeInit {s : State} (hd : s.initDone = false) :
    needsInit s = some .notInitialized := by simp [needsInit, hd]

/-- The code of the two-nibble requests' gate (60_exceptions.md R213). -/
theorem needsInit_code (s : State) :
    (needsInit s).elim 0 ResultCode.toBits = if s.initDone then 0 else 2 := by
  cases hd : s.initDone <;> simp [needsInit, hd, ResultCode.toBits]

/-- The code of INIT's gate (60_exceptions.md R214). -/
theorem onlyBeforeInit_code (s : State) :
    (onlyBeforeInit s).elim 0 ResultCode.toBits = if s.initDone then 3 else 0 := by
  cases hd : s.initDone <;> simp [onlyBeforeInit, hd, ResultCode.toBits]

/-- The gate comes before the row (60_exceptions.md R217). -/
theorem rejection_setCursor_beforeInit {s : State} (hd : s.initDone = false) (col : Byte)
    (row : BitVec 3) : rejection s (.setCursor col row) = some .notInitialized := by
  simp [rejection, needsInit_beforeInit hd]

/-- With the gate open the row is left to check (60_exceptions.md R215). -/
theorem rejection_setCursor_row {s : State} (hd : s.initDone = true) (col : Byte) {row : BitVec 3}
    (hrow : s.cfg.rows ≤ row.toNat) :
    rejection s (.setCursor col row) = some .rowOutOfRange := by
  simp [rejection, hrow, needsInit_eq_none.mpr hd]

/-- The code of R217's order is that of the rejection, and 0 where there is none. -/
theorem answerCode_request (s : State) (i : Instr) :
    answerCode s (.request i) = (rejection s i).elim 0 ResultCode.toBits := by
  cases i with
  | setCursor col row =>
    cases hd : s.initDone with
    | false => simp [answerCode, hd, rejection_setCursor_beforeInit hd, ResultCode.toBits]
    | true =>
      by_cases hrow : s.cfg.rows ≤ row.toNat
      · simp [answerCode, hd, hrow, rejection_setCursor_row hd col hrow, ResultCode.toBits]
      · simp [answerCode, hd, hrow, rejection, needsInit_eq_none.mpr hd]
  | commit value => rfl
  | sendNibble rs p => rfl
  | sendByte rs b => exact (needsInit_code s).symm
  | writeCommand b => exact (needsInit_code s).symm
  | writeChar b => exact (needsInit_code s).symm
  | init => exact (onlyBeforeInit_code s).symm

/-- The code does not depend on the inputs. -/
theorem answerCode_takeInput (rest : List Input) (s : State) (d : Decoded) :
    answerCode (takeInput rest s) d = answerCode s d := by
  cases d with
  | request i => cases i <;> rfl
  | illegal why => rfl

/-- `t` is `s` after an answer with `code`: ERR holds the code, and one that is not 0 is all that is written. -/
def AnswersWith (s t : State) (code : BitVec 3) : Prop :=
  t.err = code ∧ (code ≠ 0 → t = { s with err := code })

theorem answersWith_setErr (s : State) (c : ResultCode) : AnswersWith s (setErr s c) c.toBits :=
  ⟨rfl, fun _ => rfl⟩

theorem answersWith_accept (op : Op) (es : List Event) (s : State) :
    AnswersWith s (accept op es s) 0 := ⟨rfl, fun h => absurd rfl h⟩

/-- An idle block answers every submitted word with the first code that holds (60_exceptions.md R217). -/
theorem submitWord_answers (w : Word16) {s : State} (hc : cfgWf s.cfg = true) (hb : s.busy = false) :
    ∃ t, submitWord w s = .next t ∧ AnswersWith s t (answerCode s (decode w)) := by
  cases hd : decode w with
  | illegal why => exact ⟨_, submitWord_illegal hd s, answersWith_setErr s .illegalRequest⟩
  | request i =>
    rw [submitWord_request hd, answerCode_request]
    cases hr : rejection s i with
    | none => exact ⟨_, exec_accepts hc hb (rejection_eq_none.mp hr), answersWith_accept _ _ s⟩
    | some c => exact ⟨_, exec_rejects hc hb hr, answersWith_setErr s c⟩

/-- The same of the step in which the word is offered; the word is then gone from the port. -/
theorem step_answers {s : State} {w : Word16} {rest : List Input} (hc : cfgWf s.cfg = true)
    (ho : s.Offers w rest) :
    ∃ t, step s = .next t ∧ AnswersWith (takeInput rest s) t (answerCode s (decode w)) := by
  rw [step_submit hc ho, ← answerCode_takeInput rest s]
  exact submitWord_answers w (s := takeInput rest s) hc ho.1

end Sys2Proof.Machine
end

section
/-! SUPPORT. What keeps INIT_DONE and ERR: every step but a reset, a power cycle and, for ERR, a submission
(60_exceptions.md R211, R214, R216). -/

namespace Sys2Proof.Machine

/-- The outside's next action is a reset or a power cycle. -/
def State.ResetNext (s : State) : Prop :=
  ∃ rest, s.inputs = .reset :: rest ∨ s.inputs = .powerCycle :: rest ∨
    ∃ k, s.inputs = .resetInside k :: rest

/-- A step that is no reset is the block's, ends a text with nothing offered, or submits the word on the port. -/
theorem step_cases_of_not_resetNext {s t : State} (h : step s = .next t) (hr : ¬ s.ResetNext) :
    (∃ rest, t = blockStep (takeInput rest s)) ∨ (∃ rest, t = takeInput rest s) ∨
    (reqReady s = true ∧ ∃ w rest, reqWord s = some w ∧ submitWord w (takeInput rest s) = .next t) := by
  obtain ⟨-, ⟨-, rfl⟩ | ⟨-, -, rfl⟩ | ⟨w, rest, hb, hi, hw⟩ | ⟨text, rest, hb, hi, hp⟩ | ⟨rest, -, rfl⟩ |
    ⟨rest, hi, -⟩ | ⟨k, rest, hi, -⟩ | ⟨rest, hi, -⟩⟩ := step_cases h
  · exact .inl ⟨s.inputs, rfl⟩
  · exact .inl ⟨s.inputs, rfl⟩
  · exact .inr (.inr ⟨by simp [reqReady, hb], w, rest, by simp [reqWord, hi], hw⟩)
  · rw [printTurn_eq hi] at hp
    cases hword : reqWord s with
    | none =>
      rw [hword] at hp
      cases hp
      exact .inr (.inl ⟨rest, rfl⟩)
    | some w =>
      rw [hword] at hp
      exact .inr (.inr ⟨by simp [reqReady, hb], w, _, rfl, hp⟩)
  · exact .inl ⟨rest, rfl⟩
  · exact absurd ⟨rest, .inl hi⟩ hr
  · exact absurd ⟨rest, .inr (.inr ⟨k, hi⟩)⟩ hr
  · exact absurd ⟨rest, .inr (.inl hi)⟩ hr

@[simp] theorem performEvent_err (s : State) (e : Event) : (performEvent s e).err = s.err :=
  (congrArg State.err (sequencer_performEvent s e) :)

@[simp] theorem performEvent_initDone (s : State) (e : Event) :
    (performEvent s e).initDone = s.initDone :=
  (congrArg State.initDone (sequencer_performEvent s e) :)

@[simp] theorem performEvent_inputs (s : State) (e : Event) : (performEvent s e).inputs = s.inputs :=
  (congrArg State.inputs (sequencer_performEvent s e) :)

/-- The block writes neither ERR nor the port, and never clears INIT_DONE (10_state.md R38, R40). -/
theorem blockStep_frame (s : State) :
    (blockStep s).err = s.err ∧ (blockStep s).inputs = s.inputs ∧
    (s.initDone = true → (blockStep s).initDone = true) := by
  rcases hp : s.pending with _ | ⟨e, _ | ⟨e', rest⟩⟩
  · simp [blockStep_idle hp]
  · simp +contextual [blockStep_last hp]
  · simp [blockStep_more hp]

/-- No submission writes INIT_DONE (10_state.md R39). -/
theorem submitWord_initDone {w : Word16} {s t : State} (h : submitWord w s = .next t) :
    t.initDone = s.initDone := by
  cases hd : decode w with
  | illegal why =>
    rw [submitWord_illegal hd] at h
    cases h
    rfl
  | request i =>
    rw [submitWord_request hd] at h
    exact (congrArg State.initDone (Sys2Proof.Proofs.submissionFrame i s t h) :)

theorem step_reset {s : State} {rest : List Input} (hc : cfgWf s.cfg = true)
    (hi : s.inputs = .reset :: rest) : step s = .next (blockReset (takeInput rest s)) := by
  simp [step_eq_agentTurn hc, agentTurn, hi]

/-- Only a reset or a power cycle takes INIT_DONE from 1 to 0 (60_exceptions.md R214). -/
theorem step_keeps_initDone {s t : State} (h : step s = .next t) (hr : ¬ s.ResetNext)
    (hd : s.initDone = true) : t.initDone = true := by
  obtain ⟨rest, rfl⟩ | ⟨rest, rfl⟩ | ⟨-, w, rest, -, hw⟩ := step_cases_of_not_resetNext h hr
  · exact (blockStep_frame (takeInput rest s)).2.2 hd
  · exact hd
  · exact (submitWord_initDone hw).trans hd

/-- A code stays while no word is taken (60_exceptions.md R211). -/
theorem step_keeps_err {s t : State} (h : step s = .next t) (hr : ¬ s.ResetNext)
    (hno : reqReady s = false ∨ reqWord s = none) : t.err = s.err := by
  obtain ⟨rest, rfl⟩ | ⟨rest, rfl⟩ | ⟨hready, w, rest, hword, -⟩ := step_cases_of_not_resetNext h hr
  · exact (blockStep_frame (takeInput rest s)).1
  · rfl
  · simp [hready, hword] at hno

/-- A busy block has an event pending (10_state.md R28). -/
theorem pending_ne_nil_of_busy {s : State} (hs : s.Inv) (hb : s.busy = true) : s.pending ≠ [] := by
  intro hp
  simpa [hb, hp] using hs.busy.2

end Sys2Proof.Machine
end

section
/-! SUPPORT. The statements of 60_exceptions.md, settled. -/

open Sys2Proof Sys2Proof.Machine Sys2Proof.Certificates

namespace Sys2Proof.Proofs

/-- Settles O7: the block moves with the word held, and runs its pending events to completion so. -/
theorem busyBlockHoldsTheOfferedWord : Obligations.BusyBlockHoldsTheOfferedWord := by
  intro s w rest hc hinv hb hi
  obtain ⟨t, ht, hr⟩ := runSteps_performs_holdingOffer (after := []) hc hinv.pins hi rfl (fun _ => hb)
    (List.append_nil s.pending).symm
  obtain ⟨hidle, -, -⟩ := hr.last (pending_ne_nil_of_busy hinv hb) rfl
  obtain ⟨herr, hinputs, -⟩ := blockStep_frame s
  exact ⟨step_holdsOffer hc hb hi rfl, hinputs, herr, fun i => exec_holds i hc hb,
    t, ht, hidle, hr.inputs, hr.err⟩

/-- Settles O14: the gate of INIT, and the steps that keep INIT_DONE. -/
theorem initIsTakenOnceAfterEachReset : Obligations.InitIsTakenOnceAfterEachReset := by
  refine ⟨fun s hb hd => ?_, fun s hb hd => ⟨_, initIsAccepted s hb hd, rfl, rfl⟩,
    fun s t h h1 h0 => ?_, fun s t rest hi h => ?_⟩
  · have hgate : onlyBeforeInit s = some .alreadyInitialized := by simp [onlyBeforeInit, hd]
    rw [exec, execInit, hgate, submitRequest_rejects _ _ _ hb]; rfl
  · by_contra hr
    simp [step_keeps_initDone h hr h1] at h0
  · rw [step_reset (step_cases h).1 hi] at h
    cases h
    exact (blockReset_frame _).2.2

/-- Settles O15: with the gate open only the row is checked. -/
theorem rowOutOfRangeIsRejected : Obligations.RowOutOfRangeIsRejected := by
  intro s col row hc hb hd
  refine ⟨fun hrow => exec_rejects hc hb (rejection_setCursor_row hd col hrow), fun hrow => ?_⟩
  obtain ⟨c, -, h⟩ := setCursorIsAccepted s col row hc hb hd hrow
  exact ⟨_, h, rfl, rfl⟩

/-- Settles O16, by the answer to an offered word and the two words decoded. -/
theorem rejectionPriority : Obligations.RejectionPriority := by
  refine ⟨fun s w rest hc ho => ?_, fun s hd _ => ?_, fun s => ?_⟩
  · obtain ⟨t, ht, herr, -⟩ := step_answers hc ho
    exact ⟨t, ht, herr⟩
  · have hword : decode 0x6600 = .request (.setCursor 0 3) := by decide
    rw [hword, answerCode_request, rejection_setCursor_beforeInit hd]; rfl
  · have hword : decode 0x6700 = .illegal .rs := by decide
    rw [hword]; rfl

/-- Settles O17, by the answer with a code that is not 0, and by the steps that keep ERR. -/
theorem rejectionWritesOnlyErr : Obligations.RejectionWritesOnlyErr := by
  refine ⟨fun s w rest hc ho hcode => ?_, fun s t h hno hreset hinside hpower => ?_⟩
  · obtain ⟨t, ht, -, honly⟩ := step_answers hc ho
    rw [ht, honly hcode]; rfl
  · refine step_keeps_err h ?_ hno
    rintro ⟨rest, hi | hi | ⟨k, hi⟩⟩
    · exact hreset rest hi
    · exact hpower rest hi
    · exact hinside k rest hi

/-- Settles O13: each two-nibble request has the gate's code, and the raw ones have no check. -/
theorem notInitializedGate : Obligations.NotInitializedGate := by
  intro s hc hb hd
  have hgate : needsInit s = some .notInitialized := needsInit_beforeInit hd
  exact ⟨fun rs b => exec_rejects hc hb (i := .sendByte rs b) hgate,
    fun b => exec_rejects hc hb (i := .writeCommand b) hgate,
    fun b => exec_rejects hc hb (i := .writeChar b) hgate,
    fun col row => exec_rejects hc hb (rejection_setCursor_beforeInit hd col row),
    fun v => ⟨_, exec_accepts hc hb (i := .commit v) trivial, rfl, rfl⟩,
    fun rs p => ⟨_, exec_accepts hc hb (i := .sendNibble rs p) trivial, rfl, rfl⟩⟩

end Sys2Proof.Proofs
end

section
/-! SUPPORT. A block reset between events and inside one: what it writes, whatever part of an event was
performed, and that the block then waits (70_reset_and_hazards.md R240 to R242). -/

namespace Sys2Proof.Machine

theorem step_resetInside {s : State} {k : Nat} {rest : List Input} (hc : cfgWf s.cfg = true)
    (hi : s.inputs = .resetInside k :: rest) : step s = .next (resetInside k (takeInput rest s)) := by
  simp [step_eq_agentTurn hc, agentTurn, hi]

/-- Of what an event may write, a block reset leaves only the stages, the captures and the delay counter to
depend on the event (70_reset_and_hazards.md R240, R242). -/
theorem blockReset_eq_resetWrites_sequencer (s : State) :
    blockReset s = { resetWrites s.sequencer with
      shift := (blockReset s).shift, out := (blockReset s).out, captures := (blockReset s).captures,
      delayCounter := s.delayCounter } := by
  cases hl : s.latch with
  | true => rw [blockReset_idle hl]; rfl
  | false => rw [blockReset_mid hl]; rfl

/-- A block reset inside an event writes what one between events writes, and TRACE stays (log 10). -/
theorem resetInside_eq_resetWrites (k : Nat) (s : State) :
    ∃ shift out captures n, resetInside k s =
      { resetWrites s with shift := shift, out := out, captures := captures, delayCounter := n } := by
  have h := blockReset_eq_resetWrites_sequencer (partOfEvent k s)
  rw [sequencer_partOfEvent] at h
  exact ⟨_, _, _, _, h⟩

/-! ## Where the reset falls (70_reset_and_hazards.md R242) -/

theorem partOfEvent_commit {s : State} {v : Byte} {more : List Event} (h : s.pending = .commit v :: more)
    (k : Nat) : partOfEvent k s = commitPart v k s := by
  simp [partOfEvent, h]

theorem partOfEvent_wait {s : State} {p : Delay} {more : List Event} (h : s.pending = .wait p :: more)
    (k : Nat) : partOfEvent k s = waitPart p k s := by
  simp [partOfEvent, h]

/-- While LATCH is low in a commit both stages are lost, and the LCD may capture anything. -/
theorem resetInside_commit {s : State} {v : Byte} {more : List Event} {k : Nat}
    (h : s.pending = .commit v :: more) (h2 : 2 ≤ k) (h26 : k ≤ 26) :
    resetInside k s = resetWrites { s with shift := .unknown, out := none,
                                           captures := s.captures ++ [.maybe] } := by
  obtain ⟨shift, sclk, mosi, hpart⟩ := commitPart_inside v s k h2 h26
  rw [resetInside, partOfEvent_commit h, hpart, blockReset_mid rfl]
  rfl

/-- In a wait LATCH is high, and the reset finds the counter part way (log 5). -/
theorem resetInside_wait {s : State} {p : Delay} {more : List Event} (hl : s.latch = true)
    (h : s.pending = .wait p :: more) (k : Nat) :
    resetInside k s = resetWrites (waitPart p k s) := by
  rw [resetInside, partOfEvent_wait h, blockReset_idle (s := waitPart p k s) hl]

/-! ## After the reset (70_reset_and_hazards.md R241) -/

/-- With nothing pending and nothing from the outside, a run stays where it is. -/
theorem runSteps_idle {s : State} (hc : cfgWf s.cfg = true) (hi : s.inputs = []) (hp : s.pending = [])
    (n : Nat) : runSteps n s = .next s := by
  have hstep : step s = .next s := by rw [step_block hc hi, blockStep_idle hp]
  induction n with
  | zero => rfl
  | succ n ih => rw [runSteps_succ n hstep, ih]

/-- A block reset empties PENDING and does not touch the port. -/
theorem blockReset_pending_inputs (s : State) :
    (blockReset s).pending = [] ∧ (blockReset s).inputs = s.inputs := by
  rw [blockReset_eq_resetWrites_sequencer]
  exact ⟨rfl, rfl⟩

@[simp] theorem partOfEvent_inputs (k : Nat) (s : State) : (partOfEvent k s).inputs = s.inputs :=
  (congrArg State.inputs (sequencer_partOfEvent k s) :)

/-- After a block reset with nothing submitted the block waits. -/
theorem runSteps_blockReset {s : State} (hc : cfgWf s.cfg = true) (hi : s.inputs = []) (n : Nat) :
    runSteps n (blockReset s) = .next (blockReset s) := by
  obtain ⟨hcfg, -, -⟩ := blockReset_frame s
  obtain ⟨hpending, hinputs⟩ := blockReset_pending_inputs s
  exact runSteps_idle (hcfg ▸ hc) (hinputs.trans hi) hpending n

end Sys2Proof.Machine
end

section
/-! SUPPORT. The least time of each expansion, the table of 70_reset_and_hazards.md R257. -/

open Sys2Proof.Certificates

namespace Sys2Proof.Machine

section
variable (c : Cfg)

theorem leastTime_append (a b : List Event) : leastTime c (a ++ b) = leastTime c a + leastTime c b := by
  simp [leastTime]

theorem leastTime_wait (p : Delay) : leastTime c [.wait p] = delayOf c p := by
  simp [leastTime, minTime]

theorem leastTime_nibbleEvents (rs : Bool) (p : Byte) :
    leastTime c (nibbleEvents rs p) = 3 * commitTime c + c.tEnHigh + c.tNibble := by
  simp only [nibbleEvents, leastTime, minTime, delayOf, List.map_cons, List.map_nil, List.sum_cons,
    List.sum_nil]
  ring

theorem leastTime_byteEvents (rs : Bool) (b : Byte) :
    leastTime c (byteEvents rs b) = 6 * commitTime c + 2 * c.tEnHigh + 2 * c.tNibble + c.tByte := by
  simp only [byteEvents, leastTime_append, leastTime_nibbleEvents, leastTime_wait, delayOf]
  ring

theorem leastTime_commandEvents (b : Byte) :
    leastTime c (commandEvents b) =
      6 * commitTime c + 2 * c.tEnHigh + 2 * c.tNibble + c.tByte + if isLong b then c.tLong else 0 := by
  rw [commandEvents, leastTime_append, leastTime_byteEvents]
  cases isLong b with
  | false => rfl
  | true => rw [if_pos rfl, if_pos rfl, leastTime_wait]; rfl

/-- Twelve nibbles, the waits around the raw ones, four settles and the long delay of the clear. -/
theorem leastTime_initEvents :
    leastTime c initEvents =
      36 * commitTime c + 12 * c.tEnHigh + 12 * c.tNibble + 4 * c.tByte + c.tPowerOn
        + c.tReset1 + c.tReset2 + c.tReset3 + c.tReset4 + c.tLong := by
  have h28 : isLong 0x28 = false := rfl
  have h0C : isLong 0x0C = false := rfl
  have h06 : isLong 0x06 = false := rfl
  have h01 : isLong 0x01 = true := rfl
  simp only [initEvents, leastTime_append, leastTime_nibbleEvents, leastTime_commandEvents,
    leastTime_wait, delayOf, h28, h0C, h06, h01, if_true, Bool.false_eq_true, if_false]
  ring

/-- The table's bound of a request that has events is the least time of those events. -/
theorem boundOf_eq_leastTime {i : Instr} (hne : expand c i ≠ []) :
    boundOf c i = leastTime c (expand c i) := by
  cases i with
  | commit value => simp [boundOf, expand, expandCommit, leastTime, minTime, commitTime]
  | sendNibble rs p => exact (leastTime_nibbleEvents c rs p).symm
  | sendByte rs b => exact (leastTime_byteEvents c rs b).symm
  | writeCommand b =>
    simp only [boundOf, expand, expandWriteCommand, leastTime_commandEvents, isLong_iff]
    rfl
  | writeChar b => exact (leastTime_byteEvents c true b).symm
  | setCursor col row =>
    cases ho : c.rowOffset[row.toNat]? with
    | none => simp [expand, ho] at hne
    | some offset =>
      have hshort : expand c (.setCursor col row) = byteEvents false (cursorCommand col offset) := by
        simp [expand, ho, expandSetCursor, commandEvents_of_short (isLong_cursorCommand col offset)]
      rw [hshort, leastTime_byteEvents]
      rfl
  | init => exact (leastTime_initEvents c).symm

end

end Sys2Proof.Machine
end

section
/-! SUPPORT. The least legal timing of INIT and the bytes after it: its gaps are exact, so obligation (c) of
43_lcd_capture.md R195 is met in it only where every long command has its delay (70_reset_and_hazards.md R251). -/

namespace Sys2Proof.Machine

/-- The timing in which every event takes its lower bound (10_state.md R33, R36). -/
def leastTiming (c : Cfg) (es : List Event) : Timed := es.map fun e => (e, minTime c e)

theorem leastTiming_append (c : Cfg) (a b : List Event) :
    leastTiming c (a ++ b) = leastTiming c a ++ leastTiming c b := List.map_append

theorem eventsOf_leastTiming (c : Cfg) (es : List Event) : eventsOf (leastTiming c es) = es :=
  (legalTiming_least c es).1

theorem elapsed_leastTiming (c : Cfg) (es : List Event) : elapsed (leastTiming c es) = leastTime c es := by
  simp [elapsed, leastTiming, leastTime, Function.comp_def]

/-- The least times of a nibble's events. -/
def NibbleTimes.least (c : Cfg) : NibbleTimes :=
  ⟨commitTime c, commitTime c, c.tEnHigh, commitTime c, c.tNibble⟩

theorem leastTiming_send (c : Cfg) (x : Send) :
    leastTiming c x.events =
      (NibbleTimes.least c).timed x.rs x.p ++ leastTiming c (x.after.map .wait) :=
  leastTiming_append c (nibbleEvents x.rs x.p) _

/-- The captures of sends in their least timing: each gap is its send's settle, and the last has none. -/
def leastGaps (c : Cfg) : List Send → List (Capture × Option Rat)
  | [] => []
  | x :: xs => (.exact x.latched, if xs = [] then none else some (x.settle c)) :: leastGaps c xs

theorem gapsFrom_leastTiming (c : Cfg) (xs : List Send) {u : Byte} (hu : enableOf u = false)
    (last : Option (Capture × Rat)) :
    gapsFrom (some u) last (leastTiming c (xs.flatMap Send.events)) =
      (last.map fun k => (k.1, if xs = [] then none else some k.2)).toList ++ leastGaps c xs := by
  induction xs generalizing u last with
  | nil => simp [leastTiming, gapsFrom, leastGaps]
  | cons x xs ih =>
    rw [List.flatMap_cons, leastTiming_append, leastTiming_send, List.append_assoc,
      gapsFrom_timed _ _ _ _ hu,
      fold_waits (f := fun a => gapsFrom (some (pack x.rs false x.p)) (some (_, a)))
        (fun _ _ _ _ => rfl) (eventsOf_leastTiming c _),
      ih (enableOf_pack ..), elapsed_leastTiming]
    rfl

theorem certainGaps_leastTiming (c : Cfg) {u : Option Byte} (hu : EnableLow u) (bs : List ByteSend) :
    certainGaps u (leastTiming c (initTrace bs)) = leastGaps c (sendsAfterInit bs) := by
  obtain ⟨es, hes⟩ := initTrace_eq_cons bs
  obtain ⟨w, hw, -, -, hgaps⟩ :=
    exists_known_alike hu (enableOf_pack ..) ((eventsOf_leastTiming c (initTrace bs)).trans hes)
  rw [hgaps]
  exact gapsFrom_leastTiming c (sendsAfterInit bs) hw none

/-! ## Where the least timing meets the long delay -/

theorem longBytesKept_of_longGapsMet {c : Cfg} {bs : List ByteSend}
    (h : longGapsMet (leastGaps c (bs.flatMap ByteSend.sends))) : LongBytesKept c bs := by
  induction bs with
  | nil => trivial
  | cons x bs ih =>
    obtain ⟨hgap, h⟩ := h
    refine ⟨fun hrs hlong hne => ?_, ih h⟩
    have hcommand : isLongCommand (.exact (Send.latched ⟨x.rs, hi x.b, []⟩))
        (.exact (Send.latched ⟨x.rs, lo x.b, .byte :: x.after⟩)) = true := by
      rw [Send.latched, Send.latched, isLongCommand_byte, hrs, hlong]; rfl
    obtain ⟨y, ys, rfl⟩ := List.exists_cons_of_ne_nil hne
    exact hgap hcommand _ (if_neg (List.cons_ne_nil _ _))

theorem longBytesKept_append_right {c : Cfg} {as bs : List ByteSend} (h : LongBytesKept c (as ++ bs)) :
    LongBytesKept c bs := by
  induction as with
  | nil => exact h
  | cons x as ih => exact ih h.2

/-- A SEND_BYTE without the long delay keeps it only as the last byte (70_reset_and_hazards.md R251). -/
theorem eq_nil_of_sendsLongWithoutDelay {c : Cfg} {i : Instr} {bs : List ByteSend}
    (hi : sendsLongWithoutDelay c i = true) (h : LongBytesKept c (requestBytes c i ++ bs)) : bs = [] := by
  cases i with
  | sendByte rs b =>
    simp only [sendsLongWithoutDelay, Bool.and_eq_true, Bool.not_eq_true', decide_eq_true_eq] at hi
    obtain ⟨⟨hrs, hlong⟩, hshort⟩ := hi
    by_contra hne
    have hsettle : 1520000 ≤ ByteSend.settle c ⟨rs, b, []⟩ := h.1 hrs hlong hne
    simp [ByteSend.settle, leastTime_wait, delayOf, hshort.not_ge] at hsettle
  | _ => cases hi

theorem longDelayKept_of_longBytesKept {c : Cfg} {reqs : List Instr}
    (hr : ∀ i ∈ reqs, byteRequest i = true) (hk : LongBytesKept c (reqs.flatMap (requestBytes c))) :
    longDelayKept c reqs = true := by
  induction reqs with
  | nil => rfl
  | cons i reqs ih =>
    obtain ⟨-, hreqs⟩ := List.forall_mem_cons.mp hr
    rw [List.flatMap_cons] at hk
    rw [longDelayKept, flatMap_expand_eq_byteListEvents c hreqs, Bool.and_eq_true]
    refine ⟨?_, ih hreqs (longBytesKept_append_right hk)⟩
    cases hi : sendsLongWithoutDelay c i with
    | false => rfl
    | true => rw [eq_nil_of_sendsLongWithoutDelay hi hk]; rfl

/-- The least timing meets obligation (c) only where every long command has its delay. -/
theorem longDelayKept_of_leastTiming {c : Cfg} {u : Option Byte} (hu : EnableLow u) {reqs : List Instr}
    (hr : ∀ i ∈ reqs, byteRequest i = true)
    (h : LongDelayMet u (leastTiming c (initTrace (reqs.flatMap (requestBytes c))))) :
    longDelayKept c reqs = true := by
  rw [LongDelayMet, certainGaps_leastTiming c hu] at h
  have hkept : LongBytesKept c (initCommands ++ reqs.flatMap (requestBytes c)) :=
    longBytesKept_of_longGapsMet h
  exact longDelayKept_of_longBytesKept hr (longBytesKept_append_right hkept)

end Sys2Proof.Machine
end

section
/-! SUPPORT. The statements of 70_reset_and_hazards.md, settled. -/

open Sys2Proof Sys2Proof.Machine Sys2Proof.Certificates

namespace Sys2Proof.Proofs

/-- Settles O44: inside a commit LATCH is low after lines 2 to 26; between events and in a wait it is high. -/
theorem resetInTheMiddleOfARequest : Obligations.ResetInTheMiddleOfARequest := by
  intro s e more k rest hc hpins hp
  obtain ⟨hlatch, -, -⟩ := hpins
  refine ⟨fun v he hi h2 h26 => ?_, fun h => ?_⟩
  · subst he
    rw [step_resetInside hc hi, resetInside_commit (s := takeInput rest s) hp h2 h26]
    exact ⟨_, rfl, rfl, rfl, rfl, rfl, rfl, rfl, rfl, rfl, rfl, rfl, rfl⟩
  · obtain hi | ⟨⟨p, rfl⟩, hi⟩ := h
    · rw [step_reset hc hi, blockReset_idle (s := takeInput rest s) hlatch]
      exact ⟨_, rfl, rfl, rfl, rfl, rfl, rfl, rfl, rfl, rfl, rfl, rfl, rfl⟩
    · rw [step_resetInside hc hi, resetInside_wait (s := takeInput rest s) hlatch hp]
      exact ⟨_, rfl, rfl, rfl, rfl, rfl, rfl, rfl, rfl, rfl, rfl, rfl, rfl⟩

/-- Settles O46: a reset, between events or inside one, empties PENDING, and an idle block stays as it is. -/
theorem afterResetTheBlockWaits : Obligations.AfterResetTheBlockWaits := by
  intro s t hi hstep n
  obtain ⟨hc, -⟩ := step_cases hstep
  obtain hi | ⟨k, hi⟩ := hi
  · rw [step_reset hc hi] at hstep
    cases hstep
    exact runSteps_blockReset (s := takeInput [] s) hc rfl n
  · rw [step_resetInside hc hi] at hstep
    cases hstep
    exact runSteps_blockReset (s := partOfEvent k (takeInput [] s)) (by simpa using hc) (by simp) n

/-- Settles O55: a legal timing lasts at least the sum of the bounds, and that sum is the table's. -/
theorem requestTimeLowerBounds : Obligations.RequestTimeLowerBounds := by
  intro c i tt _ ht hne hl
  rw [boundOf_eq_leastTime c hne, ← ht]
  exact leastTime_le_elapsed c tt hl

/-- Settles O60, with the least timing: (c) would be met in it only if the long delay were kept. -/
theorem sendByteOfAClearCanBreakTheLongDelay : Obligations.SendByteOfAClearCanBreakTheLongDelay := by
  intro c u reqs _ hu hr hbroken
  rw [trace_eq_initTrace c hr]
  have hlong : ¬ LongDelayMet u (leastTiming c (initTrace (reqs.flatMap (requestBytes c)))) := by
    intro h
    simp [longDelayKept_of_leastTiming hu hr h] at hbroken
  exact ⟨_, eventsOf_leastTiming c _, (legalTiming_least c _).2, hlong, fun ts hreads => hlong hreads.1.long⟩

/-- Settles O43: the writes of a reset, which inside an event leave only the stages, the captures and the
delay counter to it. -/
theorem blockResetEffect : Obligations.BlockResetEffect := by
  refine ⟨fun s rest hc hl hi => ?_, fun s k rest hc hi => ?_⟩
  · rw [step_reset hc hi, blockReset_idle (s := takeInput rest s) hl]
    rfl
  · obtain ⟨shift, out, captures, n, h⟩ := resetInside_eq_resetWrites k (takeInput rest s)
    refine ⟨shift, out, captures, n, ?_⟩
    rw [step_resetInside hc hi, h]
    rfl

end Sys2Proof.Proofs
end

section
/-! SUPPORT. A block reset inside a commit at the lines where LATCH is high: before it falls nothing of the
commit stays, and from its rise on the whole commit does (70_reset_and_hazards.md R240, R242; log 10). -/

namespace Sys2Proof.Machine

/-- The commit has 28 lines, and a reset that comes after them finds it whole (40_transport.md R101). -/
theorem commitPart_of_28_le (v : Byte) {k : Nat} (hk : 28 ≤ k) (s : State) :
    commitPart v k s = performCommit v s :=
  congrArg (List.foldl pinLine s) (List.take_of_length_le hk)

/-- A reset releases the bus and leaves MOSI unknown, as the last line of a commit does (R101, R240). -/
theorem resetWrites_release (s : State) : resetWrites (pinLine s .release) = resetWrites s := rfl

section
variable {s : State} {v : Byte} {more : List Event} {k : Nat} (hp : s.pending = .commit v :: more)
include hp

/-- Before LATCH falls the commit has taken the bus at most, which the reset gives back. -/
theorem resetInside_commit_beforeLatchFalls (hl : s.latch = true) (hk : k ≤ 1) :
    resetInside k s = resetWrites s := by
  rw [resetInside, partOfEvent_commit hp]
  obtain rfl | rfl : k = 0 ∨ k = 1 := by omega
  · exact blockReset_idle hl
  · exact blockReset_idle (s := pinLine s .acquire) hl

/-- Once LATCH has risen only the release is left of the commit, and the reset does that too. -/
theorem resetInside_commit_afterLatchRises (hs : s.PinsIdle) (hk : 27 ≤ k) :
    resetInside k s = resetWrites (performCommit v s) := by
  rw [resetInside, partOfEvent_commit hp]
  obtain rfl | hwhole : k = 27 ∨ 28 ≤ k := by omega
  · have hlatch : (commitPart v 27 s).latch = true := (levels_commitPart v hs (by decide)).2
    rw [blockReset_idle hlatch, performCommit_released, resetWrites_release]
  · have hlatch : (performCommit v s).latch = true := by rw [performCommit_eq v hs.2.1]
    rw [commitPart_of_28_le v hwhole, blockReset_idle hlatch]

end

end Sys2Proof.Machine
end

section
/-! SUPPORT. The statement of log 10's reading, settled. -/

open Sys2Proof Sys2Proof.Machine

namespace Sys2Proof.Proofs

/-- Settles O45: the reset finds the state as before the commit or as after it, and never enters it in
TRACE. -/
theorem resetAtTheEdgesOfACommit : Obligations.ResetAtTheEdgesOfACommit := by
  intro s v more k rest hc hpins hp hi
  have hpins' : (takeInput rest s).PinsIdle := hpins
  rw [step_resetInside hc hi]
  refine ⟨fun hk => ?_, fun hk => ?_⟩
  · rw [resetInside_commit_beforeLatchFalls (s := takeInput rest s) hp hpins'.1 hk]
    exact ⟨_, rfl, rfl, rfl, rfl, rfl, rfl, rfl, rfl, rfl⟩
  · rw [resetInside_commit_afterLatchRises (s := takeInput rest s) hp hpins' hk,
      performCommit_eq_of_pinsIdle v hpins']
    exact ⟨_, rfl, rfl, rfl, rfl, rfl, rfl, rfl, rfl, rfl⟩

end Sys2Proof.Proofs
end
